-- ==== Sys2Proof/Word.lean ====
section
/-! DEFINITION. The word types of the NanoCore core (spec/00_scope.md R5, R9; spec/30_encoding.md R78). -/

namespace Sys2Proof

/-- A byte: every register, pc, sp, memory cell, immediate and address (R9). Its width, `XLEN` = 8 (R5), stands here and
nowhere else; `Config.xlen` names it. -/
abbrev Byte := BitVec 8

/-- The width of a bit vector. -/
def widthOf {w : Nat} (_ : BitVec w) : Nat := w

/-- `XLEN` (R5): the width in bits of every register, pc, sp, memory cell, immediate and address, that is of a Byte. -/
def Config.xlen : Nat := widthOf (0 : Byte)

/-- A general register's number, 0 to 15: "A register index is a 4-bit number" (R78, R21). -/
abbrev Reg := BitVec 4

end Sys2Proof
end

