-- ==== Sys2Proof/Config.lean ====
section
/-! DEFINITION. What one implementation fixes: the named parameters of spec/00_scope.md R5, the types of the open
parameters of R6 with the laws a model may assume of them, and the environment's free values. The default TABLES of the
open parameters (OPCODE_MAP, SHAPE, FLAG_BITS, ERR_CODES) stand in Decode.lean, Machine/Flags.lean and
Machine/Transactions.lean. -/

namespace Sys2Proof

/-- The 39 operations of the closed set, in the order of spec/30_encoding.md R80. -/
inductive Operation where
  | hlt | nop | ldi | lda | ldr | mov | store | push | pop
  | add | addi | sub | subi | mul | muli | div | divi | mod | modi
  | inc | dec | and | or | xor | not | cmp
  | jmp | jz | jnz | call | ret
  | shl | shr | rol | ror | inp | print | jmpr | callr
  deriving DecidableEq, Repr

/-- The six operand shapes, named as the formats of R70 (None, Register, Register+Register, Address,
Register+Immediate, Register+Address). -/
inductive Shape where
  | n | r | rr | a | ri | ra
  deriving DecidableEq, Repr

/-- The six runtime errors of spec/60_exceptions.md R201 without their payloads. -/
inductive ErrorKind where
  | invalidOperand | stackOverflow | stackUnderflow | programTooLarge | divisionByZero | ioError
  deriving DecidableEq, Repr

/-- The input channel's answer to one Step (spec/10_state.md R35): `byte(b)` or `fail`. -/
inductive InputAnswer where
  | byte (b : Byte)
  | fail
  deriving DecidableEq, Repr, Inhabited

namespace Config

/-- A value of the open parameter `OPCODE_MAP` with its law: injective (R6, R81). -/
structure OpcodeMap where
  /-- The opcode byte of an operation. -/
  byte : Operation → Byte
  /-- No two operations share a byte (R81). -/
  injective : ∀ p q : Operation, byte p = byte q → p = q

/-- A value of the open parameter `FLAG_BITS` with its law: four different bit numbers 0 to 7 (R6, R28). -/
structure FlagBits where
  z : Fin 8
  c : Fin 8
  n : Fin 8
  y : Fin 8
  /-- The four positions differ (R6). -/
  distinct : [z, c, n, y].Nodup

/-- A value of the open parameter `ERR_CODES` with its law: injective (R6, R201). -/
structure ErrCodes where
  /-- The number of an error. -/
  code : ErrorKind → Nat
  /-- No two errors share a number (R6). -/
  injective : ∀ p q : ErrorKind, code p = code q → p = q

/-- The open parameters that fix how instructions are encoded: `OPCODE_MAP`, and `SHAPE`, of which R6 lets a model assume
no law: any shape for any operation. -/
structure Encoding extends OpcodeMap where
  /-- `SHAPE`: the operand shape of an operation (R6, D2). -/
  shape : Operation → Shape

/-- `MEM_SIZE` (R5). -/
def memSize : Nat := 256

/-- `NREGS` (R5). -/
abbrev nregs : Nat := 16

/-- `NOPS` (R5). -/
def nops : Nat := 39

/-- `STACK_MIN`, the lowest value sp may hold (R5). -/
def stackMin : Byte := 0xEA

/-- `STACK_MAX`, the highest value sp may hold and its value when the stack is empty (R5). -/
def stackMax : Byte := 0xFF

/-- The open parameter `ENTRY` at its default (R6, D21; assumption 5). -/
def entry : Byte := 0x00

/-- FREE VALUE (assumption 8): the input channel's answer to the n-th IN for which the state holds no lined-up answer.
No body: nothing can be proved of it beyond its type, as R35 and D18 put the answer "under no law". -/
opaque inputAnswer : Nat → InputAnswer

end Config

end Sys2Proof
end

