-- ==== Sys2Proof/Syntax.lean ====
section
/-! DEFINITION. The instructions, one constructor per mnemonic of spec/opcode_table.json (spec/30_encoding.md R80).
The operand of a single-register format (R, RI, RA) is the register BYTE b1 as it is encoded, so that the encodings R77
speaks of (b1 above 15) are terms too; the operands of format RR are the two nibbles (R73), always valid. -/

namespace Sys2Proof

/-- The instruction set (R80). `rd`, `rs` of type `Byte` are register bytes (R72, R75, R76), of type `Reg` register
numbers (R73); `imm` and `addr` are whole bytes (R78). -/
inductive Instr where
  /-- R110, format N. -/
  | hlt
  /-- R111, format N; also every unassigned opcode byte (R112). -/
  | nop
  /-- R120, format RI. -/
  | ldi (rd imm : Byte)
  /-- R121, format RA. -/
  | lda (rd addr : Byte)
  /-- R122, format RR. -/
  | ldr (rd rs : Reg)
  /-- R123, format RR. -/
  | mov (rd rs : Reg)
  /-- R124, format RA. -/
  | store (rs addr : Byte)
  /-- R130, format R. -/
  | push (rs : Byte)
  /-- R131, format R. -/
  | pop (rd : Byte)
  /-- R141, format RR. -/
  | add (rd rs : Reg)
  /-- R142, format RI. -/
  | addi (rd imm : Byte)
  /-- R143, format RR. -/
  | sub (rd rs : Reg)
  /-- R144, format RI. -/
  | subi (rd imm : Byte)
  /-- R145, format RR. -/
  | mul (rd rs : Reg)
  /-- R146, format RI. -/
  | muli (rd imm : Byte)
  /-- R147, format RR. -/
  | div (rd rs : Reg)
  /-- R148, format RI. -/
  | divi (rd imm : Byte)
  /-- R149, format RR. -/
  | mod (rd rs : Reg)
  /-- R150, format RI. -/
  | modi (rd imm : Byte)
  /-- R151, format R. -/
  | inc (rd : Byte)
  /-- R152, format R. -/
  | dec (rd : Byte)
  /-- R160, format RR. -/
  | and (rd rs : Reg)
  /-- R161, format RR. -/
  | or (rd rs : Reg)
  /-- R162, format RR. -/
  | xor (rd rs : Reg)
  /-- R163, format R. -/
  | not (rd : Byte)
  /-- R164, format RR. -/
  | cmp (rd rs : Reg)
  /-- R170, format A. -/
  | jmp (addr : Byte)
  /-- R171, format A. -/
  | jz (addr : Byte)
  /-- R172, format A. -/
  | jnz (addr : Byte)
  /-- R173, format A. -/
  | call (addr : Byte)
  /-- R174, format N. -/
  | ret
  /-- R185, format R. -/
  | shl (rd : Byte)
  /-- R186, format R. -/
  | shr (rd : Byte)
  /-- R187, format R. -/
  | rol (rd : Byte)
  /-- R188, format R. -/
  | ror (rd : Byte)
  /-- R195, format R; the mnemonic is IN. -/
  | inp (rd : Byte)
  /-- R196, format R. -/
  | print (rs : Byte)
  /-- R175, format R. -/
  | jmpr (rs : Byte)
  /-- R176, format R. -/
  | callr (rs : Byte)
  deriving DecidableEq, Repr

end Sys2Proof
end

