-- ==== Sys2Proof/WellFormed.lean ====
section
/-! DEFINITION. Which instructions are well formed: those whose register byte names a register
(spec/30_encoding.md R77; "Every register can be used in every register position", spec/10_state.md R22). -/

namespace Sys2Proof

/-- A register byte is valid iff it is 0 to 15, a register's number (R77, R5 `NREGS`). -/
def validRegByte (b : Byte) : Bool := decide (b.toNat < Config.nregs)

/-- The register byte of an instruction of format R, RI or RA; `none` in the formats that have none (R77: formats N and A)
or whose operands are always valid (format RR). -/
def Instr.regByte : Instr → Option Byte
  | .hlt | .nop | .ret => none
  | .jmp _ | .jz _ | .jnz _ | .call _ => none
  | .ldr _ _ | .mov _ _ | .add _ _ | .sub _ _ | .mul _ _ | .div _ _ | .mod _ _ => none
  | .and _ _ | .or _ _ | .xor _ _ | .cmp _ _ => none
  | .push r | .pop r | .inc r | .dec r | .not r | .shl r | .shr r | .rol r | .ror r => some r
  | .inp r | .print r | .jmpr r | .callr r => some r
  | .ldi r _ | .addi r _ | .subi r _ | .muli r _ | .divi r _ | .modi r _ => some r
  | .lda r _ | .store r _ => some r

/-- An instruction is well formed iff its register byte, where it has one, is valid (R77). -/
def Instr.wellFormed (i : Instr) : Bool :=
  match i.regByte with
  | some b => validRegByte b
  | none => true

end Sys2Proof
end

