-- ==== Sys2Proof/Decode.lean ====
section
/-! DEFINITION. Encoding and decoding (spec/30_encoding.md). The opcode byte and the shape of an operation are the open
parameters `OPCODE_MAP` and `SHAPE` (R6, R81): the decoder and the encoder take both as an argument, a `Config.Encoding`
(`decodeWith`, `encodeWith`), and stand once more at the spec's defaults (`decode`, `encode`). Everything here reads or writes the formats of R70 to R78. -/

namespace Sys2Proof

/-- Why a decode gives no instruction: the one encoding error of R83, or a `SHAPE` that is not the default. -/
inductive DecodeError where
  /-- A register byte above 15 in format R, RI or RA (R77). -/
  | invalidOperand
  /-- The operation's rule names an operand that the shape `SHAPE` gives it does not carry; never at the default
  (assumption 2). -/
  | missingOperand (op : Operation)
  deriving DecidableEq, Repr

/-! ## The tables -/

/-- The default of `OPCODE_MAP` (R80, D1; assumption 1). -/
def defaultOpcode : Operation → Byte
  | .hlt => 0x00
  | .nop => 0x01
  | .ldi => 0x02
  | .lda => 0x03
  | .ldr => 0x04
  | .mov => 0x05
  | .store => 0x06
  | .push => 0x07
  | .pop => 0x08
  | .add => 0x09
  | .addi => 0x0A
  | .sub => 0x0B
  | .subi => 0x0C
  | .mul => 0x0D
  | .muli => 0x0E
  | .div => 0x0F
  | .divi => 0x10
  | .mod => 0x11
  | .modi => 0x12
  | .inc => 0x13
  | .dec => 0x14
  | .and => 0x15
  | .or => 0x16
  | .xor => 0x17
  | .not => 0x18
  | .cmp => 0x19
  | .jmp => 0x1A
  | .jz => 0x1B
  | .jnz => 0x1C
  | .call => 0x1D
  | .ret => 0x1E
  | .shl => 0x1F
  | .shr => 0x20
  | .rol => 0x21
  | .ror => 0x22
  | .inp => 0x23
  | .print => 0x24
  | .jmpr => 0x25
  | .callr => 0x26

/-- The default map is injective, as R81 requires. -/
theorem defaultOpcode_injective : ∀ p q : Operation, defaultOpcode p = defaultOpcode q → p = q := by
  intro p q h
  cases p <;> cases q <;> first | rfl | exact absurd h (by decide)

/-- The default `OPCODE_MAP` with its law. -/
def defaultOpcodeMap : Config.OpcodeMap := ⟨defaultOpcode, defaultOpcode_injective⟩

/-- The `NOPS` = 39 operations, in the order of R80. -/
def operationTable : Vector Operation Config.nops :=
  #v[.hlt, .nop, .ldi, .lda, .ldr, .mov, .store, .push, .pop, .add, .addi, .sub, .subi,
     .mul, .muli, .div, .divi, .mod, .modi, .inc, .dec, .and, .or, .xor, .not, .cmp,
     .jmp, .jz, .jnz, .call, .ret, .shl, .shr, .rol, .ror, .inp, .print, .jmpr, .callr]

/-- All operations, as a list. -/
def allOperations : List Operation := operationTable.toList

/-- The default of `SHAPE` (R80, D2; assumption 2). -/
def shapeOf : Operation → Shape
  | .hlt | .nop | .ret => .n
  | .push | .pop | .inc | .dec | .not | .shl | .shr | .rol | .ror | .inp | .print | .jmpr | .callr => .r
  | .ldr | .mov | .add | .sub | .mul | .div | .mod | .and | .or | .xor | .cmp => .rr
  | .jmp | .jz | .jnz | .call => .a
  | .ldi | .addi | .subi | .muli | .divi | .modi => .ri
  | .lda | .store => .ra

/-- The default `OPCODE_MAP` and the default `SHAPE` (assumptions 1 and 2). -/
def defaultEncoding : Config.Encoding := { defaultOpcodeMap with shape := shapeOf }

/-- The encoded length of a shape in bytes (R70, D3). -/
def shapeLength : Shape → Nat
  | .n => 1
  | .r | .rr | .a => 2
  | .ri | .ra => 3

/-- Whether byte 1 of a shape is a register byte, which must be at most 15 (R77). -/
def hasRegByte : Shape → Bool
  | .r | .ri | .ra => true
  | .n | .rr | .a => false

/-- The operation of an instruction. -/
def operationOf : Instr → Operation
  | .hlt => .hlt
  | .nop => .nop
  | .ldi _ _ => .ldi
  | .lda _ _ => .lda
  | .ldr _ _ => .ldr
  | .mov _ _ => .mov
  | .store _ _ => .store
  | .push _ => .push
  | .pop _ => .pop
  | .add _ _ => .add
  | .addi _ _ => .addi
  | .sub _ _ => .sub
  | .subi _ _ => .subi
  | .mul _ _ => .mul
  | .muli _ _ => .muli
  | .div _ _ => .div
  | .divi _ _ => .divi
  | .mod _ _ => .mod
  | .modi _ _ => .modi
  | .inc _ => .inc
  | .dec _ => .dec
  | .and _ _ => .and
  | .or _ _ => .or
  | .xor _ _ => .xor
  | .not _ => .not
  | .cmp _ _ => .cmp
  | .jmp _ => .jmp
  | .jz _ => .jz
  | .jnz _ => .jnz
  | .call _ => .call
  | .ret => .ret
  | .shl _ => .shl
  | .shr _ => .shr
  | .rol _ => .rol
  | .ror _ => .ror
  | .inp _ => .inp
  | .print _ => .print
  | .jmpr _ => .jmpr
  | .callr _ => .callr

/-- The encoded length of an instruction: a function of its operation alone (R79). -/
def lengthWith (m : Config.Encoding) (i : Instr) : Nat := shapeLength (m.shape (operationOf i))

/-- The encoded length at the default `SHAPE`. -/
def instrLength (i : Instr) : Nat := lengthWith defaultEncoding i

/-! ## Decode -/

/-- `Decode : Byte -> Operation` (R85): the operation the map gives this byte, NOP where it gives none (R82). -/
def decodeOperation (m : Config.Encoding) (b0 : Byte) : Operation :=
  (allOperations.find? fun op => m.byte op == b0).getD .nop

/-- The destination nibble of a register pair, `b1[7:4]` (R73). -/
def pairDst (b1 : Byte) : Reg := b1.extractLsb' 4 4

/-- The source nibble of a register pair, `b1[3:0]` (R73). -/
def pairSrc (b1 : Byte) : Reg := b1.extractLsb' 0 4

/-- The operands of an instruction as its format gives them (R71 to R76). -/
inductive Operands where
  | none
  | reg (r : Byte)
  | pair (d s : Reg)
  | addr (a : Byte)
  | regImm (r imm : Byte)
  | regAddr (r a : Byte)
  deriving DecidableEq, Repr

/-- The operands of a shape, taken from the bytes after the opcode (R71 to R76, the `case fmt` of R86). -/
def operandsOf (f : Shape) (b1 b2 : Byte) : Operands :=
  match f with
  | .n => .none
  | .r => .reg b1
  | .rr => .pair (pairDst b1) (pairSrc b1)
  | .a => .addr b1
  | .ri => .regImm b1 b2
  | .ra => .regAddr b1 b2

/-- The destination register `d` of a rule: the one register, or the first of a pair (R72 to R76). -/
def Operands.dst : Operands → Option Byte
  | .reg r | .regImm r _ | .regAddr r _ => some r
  | .pair d _ => some (d.setWidth _)
  | .none | .addr _ => Option.none

/-- The source register `s` of a rule with one register: the one register, or the second of a pair (R72 to R76). -/
def Operands.src : Operands → Option Byte
  | .reg r | .regImm r _ | .regAddr r _ => some r
  | .pair _ s => some (s.setWidth _)
  | .none | .addr _ => Option.none

/-- The registers `d` and `s` of a rule with two (R73). -/
def Operands.two : Operands → Option (Reg × Reg)
  | .pair d s => some (d, s)
  | .none | .reg _ | .addr _ | .regImm _ _ | .regAddr _ _ => Option.none

/-- The immediate of a rule (R75, R78). -/
def Operands.immediate : Operands → Option Byte
  | .regImm _ k => some k
  | .none | .reg _ | .pair _ _ | .addr _ | .regAddr _ _ => Option.none

/-- The address of a rule (R74, R76, R78). -/
def Operands.address : Operands → Option Byte
  | .addr a | .regAddr _ a => some a
  | .none | .reg _ | .pair _ _ | .regImm _ _ => Option.none

/-- The instruction of an operation, its operands those its rule names; none where the shape does not carry one of them.
An operand the shape carries and the rule does not name is not used (assumption 2). -/
def instrFrom (op : Operation) (o : Operands) : Option Instr :=
  match op with
  | .hlt => some .hlt
  | .nop => some .nop
  | .ldi => o.dst.bind fun r => o.immediate.map (.ldi r)
  | .lda => o.dst.bind fun r => o.address.map (.lda r)
  | .ldr => o.two.map fun p => .ldr p.1 p.2
  | .mov => o.two.map fun p => .mov p.1 p.2
  | .store => o.src.bind fun r => o.address.map (.store r)
  | .push => o.src.map .push
  | .pop => o.dst.map .pop
  | .add => o.two.map fun p => .add p.1 p.2
  | .addi => o.dst.bind fun r => o.immediate.map (.addi r)
  | .sub => o.two.map fun p => .sub p.1 p.2
  | .subi => o.dst.bind fun r => o.immediate.map (.subi r)
  | .mul => o.two.map fun p => .mul p.1 p.2
  | .muli => o.dst.bind fun r => o.immediate.map (.muli r)
  | .div => o.two.map fun p => .div p.1 p.2
  | .divi => o.dst.bind fun r => o.immediate.map (.divi r)
  | .mod => o.two.map fun p => .mod p.1 p.2
  | .modi => o.dst.bind fun r => o.immediate.map (.modi r)
  | .inc => o.dst.map .inc
  | .dec => o.dst.map .dec
  | .and => o.two.map fun p => .and p.1 p.2
  | .or => o.two.map fun p => .or p.1 p.2
  | .xor => o.two.map fun p => .xor p.1 p.2
  | .not => o.dst.map .not
  | .cmp => o.two.map fun p => .cmp p.1 p.2
  | .jmp => o.address.map .jmp
  | .jz => o.address.map .jz
  | .jnz => o.address.map .jnz
  | .call => o.address.map .call
  | .ret => some .ret
  | .shl => o.dst.map .shl
  | .shr => o.dst.map .shr
  | .rol => o.dst.map .rol
  | .ror => o.dst.map .ror
  | .inp => o.dst.map .inp
  | .print => o.src.map .print
  | .jmpr => o.src.map .jmpr
  | .callr => o.src.map .callr

/-- Whether a shape carries the operands the rule of an operation names. -/
def carries (f : Shape) (op : Operation) : Bool := (instrFrom op (operandsOf f 0 0)).isSome

/-- The decoder of R86: from the three bytes at pc, pc + 1 and pc + 2, of which it uses as many as the length asks for
(R84). Total: at the default `SHAPE`, `InvalidOperand` is its only refusal (R77, R83). -/
def decodeWith (m : Config.Encoding) (b0 b1 b2 : Byte) : Except DecodeError Instr :=
  let op := decodeOperation m b0
  if hasRegByte (m.shape op) && !validRegByte b1 then .error .invalidOperand
  else
    match instrFrom op (operandsOf (m.shape op) b1 b2) with
    | some i => .ok i
    | none => .error (.missingOperand op)

/-- The decoder at the default encoding (assumptions 1 and 2). -/
def decode (b0 b1 b2 : Byte) : Except DecodeError Instr := decodeWith defaultEncoding b0 b1 b2

/-! ## Encode -/

/-- The register pair packed as `(dst << 4) | src` (R73, R98). -/
def pairByte (d s : Reg) : Byte := ((d.setWidth _ : Byte) <<< 4) ||| s.setWidth _

/-- The registers of an instruction as a pair byte holds them; a single register stands in both nibbles, so that it is read
whether the rule calls it `d` or `s`. -/
def Instr.pair (i : Instr) : Reg × Reg :=
  match i with
  | .ldr d s | .mov d s | .add d s | .sub d s | .mul d s | .div d s | .mod d s => (d, s)
  | .and d s | .or d s | .xor d s | .cmp d s => (d, s)
  | .hlt | .nop | .ret | .jmp _ | .jz _ | .jnz _ | .call _ => (0, 0)
  | .push r | .pop r | .inc r | .dec r | .not r | .shl r | .shr r | .rol r | .ror r => (r.setWidth 4, r.setWidth 4)
  | .inp r | .print r | .jmpr r | .callr r => (r.setWidth 4, r.setWidth 4)
  | .ldi r _ | .addi r _ | .subi r _ | .muli r _ | .divi r _ | .modi r _ => (r.setWidth 4, r.setWidth 4)
  | .lda r _ | .store r _ => (r.setWidth 4, r.setWidth 4)

/-- The immediate or the address of an instruction; 0x00 where its rule names none. -/
def Instr.data (i : Instr) : Byte :=
  match i with
  | .jmp a | .jz a | .jnz a | .call a => a
  | .ldi _ k | .addi _ k | .subi _ k | .muli _ k | .divi _ k | .modi _ k => k
  | .lda _ a | .store _ a => a
  | .ldr _ _ | .mov _ _ | .add _ _ | .sub _ _ | .mul _ _ | .div _ _ | .mod _ _ => 0
  | .and _ _ | .or _ _ | .xor _ _ | .cmp _ _ => 0
  | .hlt | .nop | .ret => 0
  | .push _ | .pop _ | .inc _ | .dec _ | .not _ | .shl _ | .shr _ | .rol _ | .ror _ => 0
  | .inp _ | .print _ | .jmpr _ | .callr _ => 0

/-- The operand bytes of an instruction in a format (R98). An operand byte that the rule of the operation does not name, as
only a `SHAPE` other than the default has, is written as 0x00 (assumption 2). -/
def operandBytes (f : Shape) (i : Instr) : List Byte :=
  match f with
  | .n => []
  | .r => [i.regByte.getD 0]
  | .rr => [pairByte i.pair.1 i.pair.2]
  | .a => [i.data]
  | .ri | .ra => [i.regByte.getD 0, i.data]

/-- The bytes of an instruction (R98), where the shape of its operation carries its operands. -/
def encodeWith (m : Config.Encoding) (i : Instr) : List Byte :=
  m.byte (operationOf i) :: operandBytes (m.shape (operationOf i)) i

/-- The encoder at the default encoding (assumptions 1 and 2). -/
def encode (i : Instr) : List Byte := encodeWith defaultEncoding i

/-- A byte stream of several instructions, one after the other (R52: "a flat byte stream"). -/
def encodeProgram (m : Config.Encoding) (p : List Instr) : List Byte := p.flatMap (encodeWith m)

/-- Decode a byte stream of at most `fuel` instructions, each starting where the one before it ends (R79); `none` where
an instruction is cut off by the end of the stream, where a register byte is invalid or where fuel runs out. -/
def decodeProgram (m : Config.Encoding) : Nat → List Byte → Option (List Instr)
  | _, [] => some []
  | 0, _ :: _ => none
  | fuel + 1, b0 :: rest =>
    let window := b0 :: rest
    match decodeWith m b0 (rest.getD 0 0) (rest.getD 1 0) with
    | .error _ => none
    | .ok i =>
      if window.length < lengthWith m i then none
      else (decodeProgram m fuel (window.drop (lengthWith m i))).map (i :: ·)

/-! ## The host's question -/

/-- Byte k of an instruction numbered as spec/opcode_table.json numbers it: the first byte holds bits 7..0. -/
def tableByte (nbits w k : Nat) : Byte := BitVec.ofNat _ ((w % 2 ^ nbits) / 2 ^ (8 * k))

/-- The instruction the decoder reads from an instruction whose bits are w (bits at nbits and above are 0). -/
def decodeTableWord (nbits w : Nat) : Option Instr :=
  (decode (tableByte nbits w 0) (tableByte nbits w 1) (tableByte nbits w 2)).toOption

end Sys2Proof
end

