-- ==== Sys2Proof/Machine/State.lean ====
section
/-! DEFINITION. The state of the core (spec/10_state.md R20), the reasons a transaction ends without a next state
(spec/60_exceptions.md R201), and the state after reset (R38, spec/70_reset_and_hazards.md R240). -/

namespace Sys2Proof.Machine

/-- The four flags (R28: "A model should hold four Booleans"). -/
structure Flags where
  /-- Zero. -/
  z : Bool
  /-- Carry. -/
  c : Bool
  /-- Negative. -/
  n : Bool
  /-- Reserved: written and read by no instruction (R31). -/
  y : Bool
  deriving DecidableEq, Repr

/-- The 256 bytes of memory (R33, R50) as (address, byte) pairs; an address that is not listed reads as 0x00, its value
after reset (R38). The canonical form is `Memory.wf` (Machine/Ops.lean). -/
abbrev Memory := List Host.Cell

/-- The architectural state, R20, and the model's two fields for the input channel (assumption 8). -/
structure State where
  /-- `x[0]` to `x[15]` (R21). -/
  regs : Vector Byte Config.nregs
  /-- The program counter (R23). -/
  pc : Byte
  /-- The stack pointer (R26). -/
  sp : Byte
  /-- Z, C, N, Y (R28). -/
  flags : Flags
  /-- Running (false) or Halted (true) (R32). -/
  halted : Bool
  /-- `mem[0x00]` to `mem[0xFF]` (R33). -/
  mem : Memory
  /-- The output accumulator, oldest byte first (R34). -/
  out : List Byte
  /-- THE MODEL'S FIELD (assumption 8): the answers the environment has lined up for the INs to come, next first (R35). -/
  input : List InputAnswer
  /-- THE MODEL'S FIELD (assumption 8): how many INs have succeeded; `Config.inputAnswer` is applied to it. -/
  inCount : Nat
  deriving DecidableEq, Repr

/-- The four operations that can divide by zero: the payload of DivisionByZero (R201, R205). -/
inductive DivOp where
  | div | divi | mod | modi
  deriving DecidableEq, Repr

/-- The runtime errors of R201. Each ends its transaction with the state unchanged (R208); stopping there is safe: the spec
gives the run no continuation a claim may rely on (spec/93_implementation_defined.md row 2). -/
inductive Fault where
  /-- Raised by a Step at decode, for a register byte above 15 in format R, RI or RA (R202); safe. -/
  | invalidOperand
  /-- Raised by PUSH, CALL, CALLR at sp = STACK_MIN; the payload is sp (R203); safe. -/
  | stackOverflow (sp : Byte)
  /-- Raised by POP, RET at sp = STACK_MAX; the payload is sp (R204); safe. -/
  | stackUnderflow (sp : Byte)
  /-- Raised by Load only, never by a Step, when start + size > 256 (R243); safe. -/
  | programTooLarge (size start max : Nat)
  /-- Raised by DIV, DIVI, MOD, MODI with a divisor of 0 (R205); safe. -/
  | divisionByZero (op : DivOp)
  /-- Raised by IN when the channel answers `fail` (R206); safe. -/
  | ioError
  deriving DecidableEq, Repr

/-- Why the model would give an instruction no meaning. -/
inductive Refusal where
  /-- Answered by no arm: every instruction has its meaning. It would be answered by `exec` for an instruction without
  one; safe. -/
  | notModelled (mnemonic : String)
  /-- Raised by a Step at decode, and only with a `SHAPE` other than the default: the shape given to the operation carries
  too few operands for its rule, so the spec gives it no effect (assumption 2); safe. -/
  | missingOperand (op : Operation)
  deriving DecidableEq, Repr

/-- What a meaning answers. -/
abbrev Result := Host.Outcome State Fault Refusal

/-- The state after Reset with the open parameter `ENTRY` given (R38, R240, R6). -/
def State.resetAt (entry : Byte) : State where
  regs := Vector.replicate Config.nregs 0
  pc := entry
  sp := Config.stackMax
  flags := ⟨false, false, false, false⟩
  halted := false
  mem := []
  out := []
  input := []
  inCount := 0

/-- The state right after reset, `ENTRY` at its default (R38, assumption 5). -/
def State.reset : State := State.resetAt Config.entry

end Sys2Proof.Machine
end

