-- ==== Sys2Proof/Machine/Ops.lean ====
section
/-! DEFINITION. The named operations over registers, memory, stack, pc, output and input: the pseudocode primitives of
spec/00_scope.md R11 and the micro-operations of spec/42_stack.md R132. -/

namespace Sys2Proof.Machine

/-! ## Memory -/

/-- The canonical form: addresses strictly rising and inside the 256 bytes, no entry equal to the 0x00 an unlisted address
reads as. -/
abbrev Memory.wf (m : Memory) : Prop :=
  m.Pairwise (fun p q => p.1 < q.1) ∧ ∀ p ∈ m, p.1 < Config.memSize ∧ p.2 ≠ 0

/-- `MemRead(addr, 1)` (spec/20_memory.md R51): the byte at an address; 0x00 where none is listed (R38). -/
def Memory.read : Memory → Byte → Byte
  | [], _ => 0
  | (k, v) :: rest, a => if k = a.toNat then v else Memory.read rest a

/-- Every entry of the address taken out, so that it reads as 0x00. -/
def Memory.erase (m : Memory) (a : Byte) : Memory := m.filter fun p => p.1 ≠ a.toNat

/-- An entry put before the first higher address. -/
def Memory.insert (a : Byte) (v : Byte) : Memory → Memory
  | [] => [(a.toNat, v)]
  | (k, w) :: rest => if a.toNat < k then (a.toNat, v) :: (k, w) :: rest else (k, w) :: Memory.insert a v rest

/-- `MemWrite(addr, 1, v)` (R51), keeping the canonical form: writing 0x00 removes the entry. -/
def Memory.write (m : Memory) (a v : Byte) : Memory :=
  if v = 0 then Memory.erase m a else Memory.insert a v (Memory.erase m a)

/-- A flat byte stream written from an address upward (R52, spec/70_reset_and_hazards.md R242). -/
def Memory.writeBytes (m : Memory) (a : Byte) : List Byte → Memory
  | [] => m
  | v :: rest => Memory.writeBytes (Memory.write m a v) (a + 1) rest

/-- `MemRead` on a state. -/
def State.memRead (s : State) (a : Byte) : Byte := Memory.read s.mem a

/-- `MemWrite` on a state. -/
def State.memWrite (s : State) (a v : Byte) : State := { s with mem := Memory.write s.mem a v }

/-! ## Registers, flags, pc, sp, halted, output -/

/-- `x[r]` (R11, R21). -/
def State.getReg (s : State) (r : Reg) : Byte := s.regs.get r.toFin

/-- `x[r] <- v`: all 8 bits (R11, R22). -/
def State.setReg (s : State) (r : Reg) (v : Byte) : State := { s with regs := s.regs.set r.toNat v r.isLt }

/-- The flags replaced. -/
def State.setFlags (s : State) (f : Flags) : State := { s with flags := f }

/-- `pc <- target` (R11): the instruction overrides pc and is not followed by retire (R24). -/
def State.jump (s : State) (target : Byte) : State := { s with pc := target }

/-- Retire: `pc <- (pc + len) mod 256` (R24, R25). -/
def State.retire (s : State) (len : Nat) : State := s.jump (s.pc + BitVec.ofNat _ len)

/-- `sp <- v`. -/
def State.setSp (s : State) (v : Byte) : State := { s with sp := v }

/-- `halted <- true` (R32, R110). -/
def State.halt (s : State) : State := { s with halted := true }

/-- `out <- out ++ [v]` (R34). -/
def State.appendOut (s : State) (v : Byte) : State := { s with out := s.out ++ [v] }

/-! ## Errors -/

/-- `raise E(info)` (R11, R12): the one operation by which an instruction ends in an error. There is no trap entry (R212):
nothing is saved, no register, flag, memory byte, sp, pc or mode changes, and control goes to the host with the error. -/
def raise (e : Fault) : Result := .fault e

/-! ## The stack engine (R132) -/

/-- `STACK_MIN`, where a push is refused. -/
def pushLimit : Byte := Config.stackMin

/-- `STACK_MAX`, where a pop is refused. -/
def popLimit : Byte := Config.stackMax

/-- `StackPush(v)`, then k (R132): refused at sp = STACK_MIN before anything is written. -/
def stackPush (v : Byte) (s : State) (k : State → Result) : Result :=
  if s.sp = pushLimit then raise (.stackOverflow s.sp)
  else k ((s.memWrite s.sp v).setSp (s.sp - 1))

/-- `StackPop()`, then k with the byte (R132): refused at sp = STACK_MAX before sp moves; the byte is read at the new sp
and stays in memory. -/
def stackPop (s : State) (k : Byte → State → Result) : Result :=
  if s.sp = popLimit then raise (.stackUnderflow s.sp)
  else k (s.memRead (s.sp + 1)) (s.setSp (s.sp + 1))

/-! ## The input channel (R35, R195) -/

/-- `InRead()`: the channel's answer to this Step; the next lined-up answer, or the environment's free value where none is
lined up (assumption 8). -/
def State.inRead (s : State) : InputAnswer :=
  match s.input with
  | a :: _ => a
  | [] => Config.inputAnswer s.inCount

/-- The answer consumed, by an IN that succeeds and by nothing else (R208; assumption 9). -/
def State.inConsume (s : State) : State := { s with input := s.input.tail, inCount := s.inCount + 1 }

/-! ## Fetch (R84) -/

/-- Fetch and decode the instruction at pc: the opcode at pc, the operand bytes at (pc + 1) and (pc + 2) mod 256, always
both read, which cannot be observed (R84, R86; assumption 20). -/
def fetchDecode (m : Config.Encoding) (s : State) : Except DecodeError Instr :=
  decodeWith m (s.memRead s.pc) (s.memRead (s.pc + 1)) (s.memRead (s.pc + 2))

/-- What a Step answers where the decode gives no instruction: the runtime error (R77, R202), or, with a `SHAPE` other than
the default, the refusal of an operation whose shape lacks an operand (assumption 2). -/
def decodeFailure : DecodeError → Result
  | .invalidOperand => raise .invalidOperand
  | .missingOperand op => .refused (.missingOperand op)

/-! ## Retire (R24) -/

/-- Whether an instruction writes pc itself, so that retire does nothing more (R24). -/
def writesPc (i : Instr) (s : State) : Bool :=
  match i with
  | .jmp _ | .call _ | .ret | .jmpr _ | .callr _ => true
  | .jz _ => s.flags.z
  | .jnz _ => !s.flags.z
  | .hlt | .nop | .ldi _ _ | .lda _ _ | .ldr _ _ | .mov _ _ | .store _ _ | .push _ | .pop _ => false
  | .add _ _ | .addi _ _ | .sub _ _ | .subi _ _ | .mul _ _ | .muli _ _ | .inc _ | .dec _ => false
  | .div _ _ | .divi _ _ | .mod _ _ | .modi _ _ | .and _ _ | .or _ _ | .xor _ _ | .not _ | .cmp _ _ => false
  | .shl _ | .shr _ | .rol _ | .ror _ | .inp _ | .print _ => false

/-- The retire of R86 after an instruction executed in s. The meanings retire by the length of the default `SHAPE`, as their
rules do; where `SHAPE` gives the operation another length, an instruction that does not write pc moves it by that. -/
def retireWith (m : Config.Encoding) (i : Instr) (s : State) (r : Result) : Result :=
  match r with
  | .next t =>
    .next (if lengthWith m i = instrLength i || writesPc i s then t
      else t.jump (s.pc + BitVec.ofNat _ (lengthWith m i)))
  | .fault e => .fault e
  | .refused x => .refused x

end Sys2Proof.Machine
end

