-- ==== Sys2Proof/Machine/Flags.lean ====
section
/-! DEFINITION. Every flag computation (spec/10_state.md R28 to R31; carries of spec/43_arithmetic.md R140 and
spec/46_shift_rotate.md) and the packing of the flags byte. -/

namespace Sys2Proof.Machine

/-- `SetZN(r)`: `Z <- (r = 0 ? 1 : 0); N <- r[7]` (R11). -/
def setZN (f : Flags) (r : Byte) : Flags := { f with z := decide (r = 0), n := r.getLsbD 7 }

/-- `C <- c; SetZN(r)`. Y keeps its value (R31). -/
def setZNC (f : Flags) (r : Byte) (c : Bool) : Flags := { setZN f r with c := c }

/-- C of an addition: the true sum exceeds 255 (R140, D12). -/
def addCarry (a b : Byte) : Bool := decide (a.toNat + b.toNat > 255)

/-- C of a subtraction: a borrow, minuend < subtrahend (R140, D12). -/
def subBorrow (a b : Byte) : Bool := decide (a.toNat < b.toNat)

/-- C of a multiplication: the true product exceeds 255 (R140, D12). -/
def mulCarry (a b : Byte) : Bool := decide (a.toNat * b.toNat > 255)

/-- C of SHL and ROL: the bit that leaves at the top (R185, R187). -/
def topBit (a : Byte) : Bool := a.getLsbD 7

/-- C of SHR and ROR: the bit that leaves at the bottom (R186, R188). -/
def bottomBit (a : Byte) : Bool := a.getLsbD 0

/-- The default of `FLAG_BITS`: Z = 0, C = 1, N = 2, Y = 3 (R28, D5; assumption 3). -/
def defaultFlagBits : Config.FlagBits := ⟨0, 1, 2, 3, by decide⟩

/-- One flag at its bit of the flags byte. -/
def flagBit (b : Bool) (k : Fin 8) : Byte := ((BitVec.ofBool b).setWidth _ : Byte) <<< k.val

/-- The `flags` byte as Observe shows it: the four flags at their bits, every other bit 0 (R28, R39). -/
def flagsByte (p : Config.FlagBits) (f : Flags) : Byte :=
  flagBit f.z p.z ||| flagBit f.c p.c ||| flagBit f.n p.n ||| flagBit f.y p.y

/-- The common end of the flag-writing instructions: `x[d] <- r`, `C <- c`, `SetZN(r)`, retire. -/
def writeResult (d : Reg) (r : Byte) (c : Bool) (len : Nat) (s : State) : Result :=
  .next (((s.setReg d r).setFlags (setZNC s.flags r c)).retire len)

end Sys2Proof.Machine
end

