-- ==== Sys2Proof/Machine/Operands.lean ====
section
/-! DEFINITION. The operand forms (spec/30_encoding.md R78; spec/41_data_movement.md: immediate, absolute,
register-indirect): a register byte, a register number, an immediate byte, an absolute address, an address in a register.
Immediates and absolute addresses are the byte as it stands and need no function. -/

namespace Sys2Proof.Machine

/-- The register a register byte names, `b1[3:0]` (R72, R75, R76). -/
def regOfByte (b : Byte) : Reg := b.setWidth 4

/-- A register byte resolved, then k: above 15 the instruction is not executed and raises InvalidOperand before anything
else (R77, R211). -/
def withReg (b : Byte) (k : Reg → Result) : Result :=
  if validRegByte b then k (regOfByte b) else raise .invalidOperand

/-- A register-indirect memory operand: the byte at the address `x[r]` (R122). -/
def State.readIndirect (s : State) (r : Reg) : Byte := s.memRead (s.getReg r)

end Sys2Proof.Machine
end

