-- ==== Sys2Proof/Machine/Arithmetic.lean ====
section
/-! DEFINITION. ADD, ADDI, SUB, SUBI, MUL, MULI, DIV, DIVI, MOD, MODI, INC, DEC (spec/43_arithmetic.md): unsigned,
modulo 256 (R140). Each shared operation is one line of R140's table. -/

namespace Sys2Proof.Machine

/-- add: `(a + b) mod 256`, C = carry (R140). -/
def addInto (d : Reg) (b : Byte) (len : Nat) (s : State) : Result :=
  writeResult d (s.getReg d + b) (addCarry (s.getReg d) b) len s

/-- subtract: `(a - b) mod 256`, C = borrow (R140). -/
def subInto (d : Reg) (b : Byte) (len : Nat) (s : State) : Result :=
  writeResult d (s.getReg d - b) (subBorrow (s.getReg d) b) len s

/-- multiply: the low byte of the product, C = the product exceeds 255 (R140). -/
def mulInto (d : Reg) (b : Byte) (len : Nat) (s : State) : Result :=
  writeResult d (s.getReg d * b) (mulCarry (s.getReg d) b) len s

/-- divide: the floor quotient, C = 0; DivisionByZero for a divisor of 0, nothing written (R140, R205). -/
def divInto (op : DivOp) (d : Reg) (b : Byte) (len : Nat) (s : State) : Result :=
  if b = 0 then raise (.divisionByZero op) else writeResult d (s.getReg d / b) false len s

/-- remainder: `a rem b`, C = 0; DivisionByZero for a divisor of 0, nothing written (R140, R205). -/
def modInto (op : DivOp) (d : Reg) (b : Byte) (len : Nat) (s : State) : Result :=
  if b = 0 then raise (.divisionByZero op) else writeResult d (s.getReg d % b) false len s

/-- ADD Rd Rs (R141). -/
def execAdd (rd rs : Reg) (s : State) : Result := addInto rd (s.getReg rs) 2 s

/-- ADDI Rd imm (R142). -/
def execAddi (rd imm : Byte) (s : State) : Result := withReg rd fun d => addInto d imm 3 s

/-- SUB Rd Rs (R143). -/
def execSub (rd rs : Reg) (s : State) : Result := subInto rd (s.getReg rs) 2 s

/-- SUBI Rd imm (R144). -/
def execSubi (rd imm : Byte) (s : State) : Result := withReg rd fun d => subInto d imm 3 s

/-- MUL Rd Rs (R145). -/
def execMul (rd rs : Reg) (s : State) : Result := mulInto rd (s.getReg rs) 2 s

/-- MULI Rd imm (R146). -/
def execMuli (rd imm : Byte) (s : State) : Result := withReg rd fun d => mulInto d imm 3 s

/-- DIV Rd Rs (R147). -/
def execDiv (rd rs : Reg) (s : State) : Result := divInto .div rd (s.getReg rs) 2 s

/-- DIVI Rd imm (R148): the register byte is checked first (R211). -/
def execDivi (rd imm : Byte) (s : State) : Result := withReg rd fun d => divInto .divi d imm 3 s

/-- MOD Rd Rs (R149). -/
def execMod (rd rs : Reg) (s : State) : Result := modInto .mod rd (s.getReg rs) 2 s

/-- MODI Rd imm (R150): the register byte is checked first (R211). -/
def execModi (rd imm : Byte) (s : State) : Result := withReg rd fun d => modInto .modi d imm 3 s

/-- INC Rd (R151): add with b = 1 (R140). -/
def execInc (rd : Byte) (s : State) : Result := withReg rd fun d => addInto d 1 2 s

/-- DEC Rd (R152): subtract with b = 1 (R140). -/
def execDec (rd : Byte) (s : State) : Result := withReg rd fun d => subInto d 1 2 s

end Sys2Proof.Machine
end

