-- ==== Sys2Proof/Machine/Control.lean ====
section
/-! DEFINITION. JMP, JZ, JNZ, CALL, RET, JMPR, CALLR (spec/45_control_transfer.md): absolute targets, no flag written. -/

namespace Sys2Proof.Machine

/-- The return address of CALL and CALLR, `(pc + 2) mod 256` (R173, R176, D22). -/
def returnAddress (s : State) : Byte := s.pc + 2

/-- JMP addr (R170). -/
def execJmp (addr : Byte) (s : State) : Result := .next (s.jump addr)

/-- JZ addr (R171): taken iff Z = 1. -/
def execJz (addr : Byte) (s : State) : Result := .next (if s.flags.z then s.jump addr else s.retire 2)

/-- JNZ addr (R172): taken iff Z = 0. -/
def execJnz (addr : Byte) (s : State) : Result := .next (if s.flags.z then s.retire 2 else s.jump addr)

/-- CALL addr (R173). -/
def execCall (addr : Byte) (s : State) : Result :=
  stackPush (returnAddress s) s fun t => .next (t.jump addr)

/-- RET (R174). -/
def execRet (s : State) : Result := stackPop s fun v t => .next (t.jump v)

/-- JMPR Rs (R175). -/
def execJmpr (rs : Byte) (s : State) : Result := withReg rs fun r => .next (s.jump (s.getReg r))

/-- CALLR Rs (R176): the register byte is checked first; the target is read before the push. -/
def execCallr (rs : Byte) (s : State) : Result :=
  withReg rs fun r => stackPush (returnAddress s) s fun t => .next (t.jump (s.getReg r))

end Sys2Proof.Machine
end

