-- ==== Sys2Proof/Machine/DataMovement.lean ====
section
/-! DEFINITION. LDI, LDA, LDR, MOV, STORE (spec/41_data_movement.md). None writes a flag. -/

namespace Sys2Proof.Machine

/-- LDI Rd imm (R120). -/
def execLdi (rd imm : Byte) (s : State) : Result :=
  withReg rd fun d => .next ((s.setReg d imm).retire 3)

/-- LDA Rd addr (R121). -/
def execLda (rd addr : Byte) (s : State) : Result :=
  withReg rd fun d => .next ((s.setReg d (s.memRead addr)).retire 3)

/-- LDR Rd Rs (R122): the address is read before the write. -/
def execLdr (rd rs : Reg) (s : State) : Result :=
  .next ((s.setReg rd (s.readIndirect rs)).retire 2)

/-- MOV Rd Rs (R123). -/
def execMov (rd rs : Reg) (s : State) : Result :=
  .next ((s.setReg rd (s.getReg rs)).retire 2)

/-- STORE Rs addr (R124). -/
def execStore (rs addr : Byte) (s : State) : Result :=
  withReg rs fun r => .next ((s.memWrite addr (s.getReg r)).retire 3)

end Sys2Proof.Machine
end

