-- ==== Sys2Proof/Machine/HaltNop.lean ====
section
/-! DEFINITION. HLT and NOP (spec/40_halt_nop.md). An unassigned opcode byte decodes to NOP (R112). -/

namespace Sys2Proof.Machine

/-- HLT (R110): halted, and pc advances past the HLT (D29). -/
def execHlt (s : State) : Result := .next (s.halt.retire 1)

/-- NOP (R111, R112). -/
def execNop (s : State) : Result := .next (s.retire 1)

end Sys2Proof.Machine
end

