-- ==== Sys2Proof/Machine/Io.lean ====
section
/-! DEFINITION. IN and PRINT (spec/47_io.md). None writes a flag. -/

namespace Sys2Proof.Machine

/-- IN Rd (R195): the register byte is checked before the channel is consulted; the answer is consumed only by an IN that
succeeds (R208). -/
def execIn (rd : Byte) (s : State) : Result :=
  withReg rd fun d =>
    match s.inRead with
    | .fail => raise .ioError
    | .byte b => .next ((s.inConsume.setReg d b).retire 2)

/-- PRINT Rs (R196): any byte, never a failure. -/
def execPrint (rs : Byte) (s : State) : Result :=
  withReg rs fun r => .next ((s.appendOut (s.getReg r)).retire 2)

end Sys2Proof.Machine
end

