-- ==== Sys2Proof/Machine/Logic.lean ====
section
/-! DEFINITION. AND, OR, XOR, NOT, CMP (spec/44_logic_compare.md). -/

namespace Sys2Proof.Machine

/-- AND Rd Rs (R160): C cleared. -/
def execAnd (rd rs : Reg) (s : State) : Result := writeResult rd (s.getReg rd &&& s.getReg rs) false 2 s

/-- OR Rd Rs (R161): C cleared. -/
def execOr (rd rs : Reg) (s : State) : Result := writeResult rd (s.getReg rd ||| s.getReg rs) false 2 s

/-- XOR Rd Rs (R162): C cleared. -/
def execXor (rd rs : Reg) (s : State) : Result := writeResult rd (s.getReg rd ^^^ s.getReg rs) false 2 s

/-- NOT Rd (R163): the ones' complement, C cleared. -/
def execNot (rd : Byte) (s : State) : Result := withReg rd fun d => writeResult d (~~~ s.getReg d) false 2 s

/-- The verdict of CMP: 0 = equal, 1 = greater, 2 = less, unsigned (R164). -/
def compareVerdict (a b : Byte) : Byte := if a = b then 0 else if a.toNat > b.toNat then 1 else 2

/-- CMP Rd Rs (R164): the verdict overwrites the first comparand; Z and N from it, C unchanged. -/
def execCmp (rd rs : Reg) (s : State) : Result :=
  writeResult rd (compareVerdict (s.getReg rd) (s.getReg rs)) s.flags.c 2 s

end Sys2Proof.Machine
end

