-- ==== Sys2Proof/Machine/Shift.lean ====
section
/-! DEFINITION. SHL, SHR, ROL, ROR (spec/46_shift_rotate.md): one register, one bit position; C is never an input. -/

namespace Sys2Proof.Machine

/-- SHL Rd (R185): `{a[6:0], 0}`, C = a[7]. -/
def execShl (rd : Byte) (s : State) : Result :=
  withReg rd fun d => writeResult d (s.getReg d <<< 1) (topBit (s.getReg d)) 2 s

/-- SHR Rd (R186): `{0, a[7:1]}`, C = a[0]. -/
def execShr (rd : Byte) (s : State) : Result :=
  withReg rd fun d => writeResult d (s.getReg d >>> 1) (bottomBit (s.getReg d)) 2 s

/-- ROL Rd (R187): `{a[6:0], a[7]}`, C = a[7]. -/
def execRol (rd : Byte) (s : State) : Result :=
  withReg rd fun d => writeResult d ((s.getReg d).rotateLeft 1) (topBit (s.getReg d)) 2 s

/-- ROR Rd (R188): `{a[0], a[7:1]}`, C = a[0]. -/
def execRor (rd : Byte) (s : State) : Result :=
  withReg rd fun d => writeResult d ((s.getReg d).rotateRight 1) (bottomBit (s.getReg d)) 2 s

end Sys2Proof.Machine
end

