-- ==== Sys2Proof/Machine/Stack.lean ====
section
/-! DEFINITION. PUSH and POP (spec/42_stack.md). None writes a flag. -/

namespace Sys2Proof.Machine

/-- PUSH Rs (R130). -/
def execPush (rs : Byte) (s : State) : Result :=
  withReg rs fun r => stackPush (s.getReg r) s fun t => .next (t.retire 2)

/-- POP Rd (R131). -/
def execPop (rd : Byte) (s : State) : Result :=
  withReg rd fun d => stackPop s fun v t => .next ((t.setReg d v).retire 2)

end Sys2Proof.Machine
end

