-- ==== Sys2Proof/Machine/Dispatch.lean ====
section
/-! DEFINITION. Execute one instruction: one arm per constructor of Instr, in the order of spec/30_encoding.md R80. -/

namespace Sys2Proof.Machine

def exec (i : Instr) (s : State) : Host.Outcome State Fault Refusal :=
  match i with
  | .hlt => Sys2Proof.Machine.execHlt s
  | .nop => Sys2Proof.Machine.execNop s
  | .ldi rd imm => Sys2Proof.Machine.execLdi rd imm s
  | .lda rd addr => Sys2Proof.Machine.execLda rd addr s
  | .ldr rd rs => Sys2Proof.Machine.execLdr rd rs s
  | .mov rd rs => Sys2Proof.Machine.execMov rd rs s
  | .store rs addr => Sys2Proof.Machine.execStore rs addr s
  | .push rs => Sys2Proof.Machine.execPush rs s
  | .pop rd => Sys2Proof.Machine.execPop rd s
  | .add rd rs => Sys2Proof.Machine.execAdd rd rs s
  | .addi rd imm => Sys2Proof.Machine.execAddi rd imm s
  | .sub rd rs => Sys2Proof.Machine.execSub rd rs s
  | .subi rd imm => Sys2Proof.Machine.execSubi rd imm s
  | .mul rd rs => Sys2Proof.Machine.execMul rd rs s
  | .muli rd imm => Sys2Proof.Machine.execMuli rd imm s
  | .div rd rs => Sys2Proof.Machine.execDiv rd rs s
  | .divi rd imm => Sys2Proof.Machine.execDivi rd imm s
  | .mod rd rs => Sys2Proof.Machine.execMod rd rs s
  | .modi rd imm => Sys2Proof.Machine.execModi rd imm s
  | .inc rd => Sys2Proof.Machine.execInc rd s
  | .dec rd => Sys2Proof.Machine.execDec rd s
  | .and rd rs => Sys2Proof.Machine.execAnd rd rs s
  | .or rd rs => Sys2Proof.Machine.execOr rd rs s
  | .xor rd rs => Sys2Proof.Machine.execXor rd rs s
  | .not rd => Sys2Proof.Machine.execNot rd s
  | .cmp rd rs => Sys2Proof.Machine.execCmp rd rs s
  | .jmp addr => Sys2Proof.Machine.execJmp addr s
  | .jz addr => Sys2Proof.Machine.execJz addr s
  | .jnz addr => Sys2Proof.Machine.execJnz addr s
  | .call addr => Sys2Proof.Machine.execCall addr s
  | .ret => Sys2Proof.Machine.execRet s
  | .shl rd => Sys2Proof.Machine.execShl rd s
  | .shr rd => Sys2Proof.Machine.execShr rd s
  | .rol rd => Sys2Proof.Machine.execRol rd s
  | .ror rd => Sys2Proof.Machine.execRor rd s
  | .inp rd => Sys2Proof.Machine.execIn rd s
  | .print rs => Sys2Proof.Machine.execPrint rs s
  | .jmpr rs => Sys2Proof.Machine.execJmpr rs s
  | .callr rs => Sys2Proof.Machine.execCallr rs s

end Sys2Proof.Machine
end

