-- ==== Sys2Proof/Machine/Step.lean ====
section
/-! DEFINITION. The Step of spec/30_encoding.md R86. -/

namespace Sys2Proof.Machine

/-- One Step with the open parameters `OPCODE_MAP` and `SHAPE` given (R86, R6): a halted core changes nothing (R32, D15);
otherwise fetch, decode, execute, retire, or what the failed decode answers. -/
def stepWith (m : Config.Encoding) (s : State) : Host.Outcome State Fault Refusal :=
  if s.halted then .next s
  else
    match fetchDecode m s with
    | .error e => decodeFailure e
    | .ok i => retireWith m i s (exec i s)

/-- One Step at the default encoding (assumptions 1 and 2). -/
def step (s : State) : Host.Outcome State Fault Refusal := stepWith defaultEncoding s

/-- s with the instruction whose bits are w stored at pc and the two addresses after it, and the core Running, without
which a Step fetches nothing (R86; assumption 16). -/
def State.withFetchWord (s : State) (nbits w : Nat) : State :=
  { s with
    halted := false
    mem := Memory.writeBytes s.mem s.pc [tableByte nbits w 0, tableByte nbits w 1, tableByte nbits w 2] }

end Sys2Proof.Machine
end

