-- ==== Sys2Proof/Machine/Assembler.lean ====
section
/-! DEFINITION. The assembler's source language and the bytes it emits (spec/30_encoding.md R90 to R101). The assembler is
software around the block (spec/00_scope.md R4); nothing of the core's step uses this file. Points the spec leaves open
(D25) are refused where the document's grammar does not show them (assumption 22). -/

namespace Sys2Proof.Machine

/-- The kinds of assembler error (R99), and the model's refusal of a name defined twice (D25). -/
inductive AsmErrorKind where
  | syntaxError
  | invalidRegister
  | invalidValue
  | invalidHexAddress
  | undefinedLabel
  /-- A constant or a label defined twice: "not specified", so refused (D25; assumption 22). -/
  | duplicateName
  deriving DecidableEq, Repr

/-- Every failure carries the 1-based source line and a kind (R99). -/
structure AsmError where
  line : Nat
  kind : AsmErrorKind
  deriving DecidableEq, Repr

/-- A token of the source. -/
abbrev Token := List Char

/-! ## Lines and tokens (R90) -/

/-- The text before the first `;` (R90). -/
def stripComment (l : List Char) : List Char := l.takeWhile (· ≠ ';')

/-- Cut a text at every occurrence of a character; `acc` is the current piece, reversed. -/
def cutAt (sep : Char) : List Char → List Char → List (List Char)
  | [], acc => [acc.reverse]
  | c :: rest, acc => if c = sep then acc.reverse :: cutAt sep rest [] else cutAt sep rest (c :: acc)

/-- The lines of a source text (R90: "line-oriented"). DESIGN CHOICE (assumption 24): a line ends at the newline character
alone. -/
def sourceLines (src : List Char) : List (List Char) := cutAt '\n' src []

/-- The tokens of a line: separated by spaces (R90). DESIGN CHOICE (assumption 24): the space character alone separates,
and a line without a token is the blank line, so a tab or a carriage return stays in a token. -/
def tokens (l : List Char) : List Token := (cutAt ' ' l []).filter (· ≠ [])

/-! ## Numbers, names and registers (R95, R96) -/

/-- The value of a decimal digit. -/
def decDigit (c : Char) : Option Nat := if '0' ≤ c ∧ c ≤ '9' then some (c.toNat - '0'.toNat) else none

/-- The value of a hexadecimal digit. DESIGN CHOICE (assumption 23): of either case. -/
def hexDigit (c : Char) : Option Nat :=
  if '0' ≤ c ∧ c ≤ '9' then some (c.toNat - '0'.toNat)
  else if 'a' ≤ c ∧ c ≤ 'f' then some (c.toNat - 'a'.toNat + 10)
  else if 'A' ≤ c ∧ c ≤ 'F' then some (c.toNat - 'A'.toNat + 10)
  else none

/-- The number a digit string denotes, most significant digit first. -/
def digitsValue (base : Nat) (digit : Char → Option Nat) : Nat → List Char → Option Nat
  | acc, [] => some acc
  | acc, c :: rest => (digit c).bind fun d => digitsValue base digit (base * acc + d) rest

/-- A nonempty digit string's value. DESIGN CHOICE (assumption 23): leading zeros are taken. -/
def numberOf (base : Nat) (digit : Char → Option Nat) : List Char → Option Nat
  | [] => none
  | c :: rest => digitsValue base digit 0 (c :: rest)

/-- Whether a token is written as hexadecimal, `0x..` (R95). -/
def isHexToken : Token → Bool
  | '0' :: 'x' :: _ => true
  | _ => false

/-- The number a decimal or `0x` token denotes, if it is well formed (R96). -/
def tokenNumber (t : Token) : Option Nat :=
  if isHexToken t then numberOf 16 hexDigit (t.drop 2) else numberOf 10 decDigit t

/-- A numeric token as a byte: it must be well formed and fit (R96), else InvalidValue (R99). -/
def tokenByte (t : Token) : Except AsmErrorKind Byte :=
  match tokenNumber t with
  | none => .error .invalidValue
  | some v => if v ≤ 255 then .ok (BitVec.ofNat _ v) else .error .invalidValue

/-- A letter or `_`. -/
def nameStart (c : Char) : Bool := ('a' ≤ c ∧ c ≤ 'z') ∨ ('A' ≤ c ∧ c ≤ 'Z') ∨ c = '_'

/-- Whether a token is an identifier: a letter or `_`, then letters, digits, `_` (assumption 22). DESIGN CHOICE
(assumption 28): no name is reserved, so a label or a constant may be called `R1` or `ADD`. -/
def isName : Token → Bool
  | [] => false
  | c :: rest => nameStart c && rest.all fun d => nameStart d || (decDigit d).isSome

/-- A register token: `R` and a decimal number 0 to 15 (R96), else InvalidRegister (R99). DESIGN CHOICE (assumption 23):
leading zeros are taken, `R00` is R0 and `R015` is R15, which neither R21 nor R96 speaks of. -/
def tokenReg : Token → Except AsmErrorKind Byte
  | 'R' :: ds =>
    match numberOf 10 decDigit ds with
    | none => .error .invalidRegister
    | some v => if v < Config.nregs then .ok (BitVec.ofNat _ v) else .error .invalidRegister
  | _ => .error .invalidRegister

/-! ## Tables -/

/-- A table of names and their values. -/
abbrev NameTable := List (Token × Nat)

/-- The value of a name. DESIGN CHOICE (assumption 26): names are compared exactly, `loop` and `LOOP` are two names. -/
def NameTable.find (t : NameTable) (name : Token) : Option Nat := t.lookup name

/-- The mnemonic of an operation (R80, R95). -/
def mnemonicOf : Operation → List Char
  | .hlt => "HLT".toList
  | .nop => "NOP".toList
  | .ldi => "LDI".toList
  | .lda => "LDA".toList
  | .ldr => "LDR".toList
  | .mov => "MOV".toList
  | .store => "STORE".toList
  | .push => "PUSH".toList
  | .pop => "POP".toList
  | .add => "ADD".toList
  | .addi => "ADDI".toList
  | .sub => "SUB".toList
  | .subi => "SUBI".toList
  | .mul => "MUL".toList
  | .muli => "MULI".toList
  | .div => "DIV".toList
  | .divi => "DIVI".toList
  | .mod => "MOD".toList
  | .modi => "MODI".toList
  | .inc => "INC".toList
  | .dec => "DEC".toList
  | .and => "AND".toList
  | .or => "OR".toList
  | .xor => "XOR".toList
  | .not => "NOT".toList
  | .cmp => "CMP".toList
  | .jmp => "JMP".toList
  | .jz => "JZ".toList
  | .jnz => "JNZ".toList
  | .call => "CALL".toList
  | .ret => "RET".toList
  | .shl => "SHL".toList
  | .shr => "SHR".toList
  | .rol => "ROL".toList
  | .ror => "ROR".toList
  | .inp => "IN".toList
  | .print => "PRINT".toList
  | .jmpr => "JMPR".toList
  | .callr => "CALLR".toList

/-- `mnemonic string → Operation`, none for an unrecognised mnemonic (R95). -/
def operationNamed (t : Token) : Option Operation := allOperations.find? fun op => mnemonicOf op == t

/-! ## Lines (R90 to R95) -/

/-- What a line of source is, its operands still tokens. -/
inductive AsmLine where
  | blank
  | label (name : Token)
  | const (name : Token) (value : Byte)
  | db (bytes : List Byte)
  | string (bytes : List Byte)
  | instr (op : Operation) (operands : List Token)
  deriving DecidableEq, Repr

/-- Every numeric literal of a `.DB` (R93). -/
def dbBytes : List Token → Except AsmErrorKind (List Byte)
  | [] => .ok []
  | t :: ts =>
    match tokenByte t, dbBytes ts with
    | .error e, _ => .error e
    | .ok _, .error e => .error e
    | .ok b, .ok bs => .ok (b :: bs)

/-- The bytes of a text as they stand in the source (R94). DESIGN CHOICE (assumption 25): the source is characters, and
their bytes are those of UTF-8. -/
def textBytes (t : List Char) : List Byte :=
  t.flatMap fun c => (String.utf8EncodeChar c).map fun u => u.toBitVec

/-- The text between the quotes of a `.STRING` line, given what follows the directive's name: spaces, `"`, the text, `"`,
spaces (R94). A quote inside the text is not shown by the document's grammar and is refused (assumption 22). -/
def quotedText (l : List Char) : Option (List Char) :=
  match l.dropWhile (· = ' ') with
  | '"' :: rest =>
    let text := rest.takeWhile (· ≠ '"')
    match rest.drop text.length with
    | '"' :: tail => if tail.all (· = ' ') then some text else none
    | _ => none
  | _ => none

/-- One line read (R90): comment removed, then blank, a label (R91), a directive (R92 to R94) or an instruction (R95). -/
def parseLine (raw : List Char) : Except AsmErrorKind AsmLine :=
  let l := stripComment raw
  match tokens l with
  | [] => .ok .blank
  | t :: ts =>
    if t = ".CONST".toList then
      match ts with
      | [name, value] => if isName name then (tokenByte value).map (.const name) else .error .syntaxError
      | _ => .error .syntaxError
    else if t = ".DB".toList then
      if ts = [] then .error .syntaxError else (dbBytes ts).map .db
    else if t = ".STRING".toList then
      match quotedText ((l.dropWhile (· = ' ')).drop t.length) with
      | some text => .ok (.string (textBytes text))
      | none => .error .syntaxError
    else if t.getLast? = some ':' then
      if ts = [] ∧ isName t.dropLast then .ok (.label t.dropLast) else .error .syntaxError
    else
      match operationNamed t with
      | some op => .ok (.instr op ts)
      | none => .error .syntaxError

/-- Every line read, with its 1-based number; the first error wins (R99). -/
def parseLines : Nat → List (List Char) → Except AsmError (List (Nat × AsmLine))
  | _, [] => .ok []
  | n, l :: ls =>
    match parseLine l with
    | .error k => .error ⟨n, k⟩
    | .ok x => (parseLines (n + 1) ls).map ((n, x) :: ·)

/-! ## The three passes (R97) -/

/-- Pass 1: collect the constants (R92). -/
def collectConsts : NameTable → List (Nat × AsmLine) → Except AsmError NameTable
  | t, [] => .ok t
  | t, (n, .const name v) :: rest =>
    if (t.find name).isSome then .error ⟨n, .duplicateName⟩ else collectConsts ((name, v.toNat) :: t) rest
  | t, (_, _) :: rest => collectConsts t rest

/-- How far a line moves the address counter (R91 to R94, R97). -/
def lineSize (m : Config.Encoding) : AsmLine → Nat
  | .blank | .label _ | .const _ _ => 0
  | .db bs | .string bs => bs.length
  | .instr op _ => shapeLength (m.shape op)

/-- Pass 2: record the labels, the address counter starting at 0 (R91). -/
def collectLabels (m : Config.Encoding) : NameTable → Nat → List (Nat × AsmLine) → Except AsmError NameTable
  | t, _, [] => .ok t
  | t, at_, (n, .label name) :: rest =>
    if (t.find name).isSome then .error ⟨n, .duplicateName⟩ else collectLabels m ((name, at_) :: t) at_ rest
  | t, at_, (_, x) :: rest => collectLabels m t (at_ + lineSize m x) rest

/-- A value that must fit in a byte (R96). -/
def fitByte (v : Nat) : Except AsmErrorKind Byte :=
  if v ≤ 255 then .ok (BitVec.ofNat _ v) else .error .invalidValue

/-- An immediate operand: a constant's name or a number (R96). DESIGN CHOICE (assumption 27): an identifier that is no
constant is read as a number, and is InvalidValue. -/
def resolveImm (consts : NameTable) (t : Token) : Except AsmErrorKind Byte :=
  match consts.find t with
  | some v => fitByte v
  | none => tokenByte t

/-- A numeric address: as a number, but a malformed `0x` token is InvalidHexAddress (R99). -/
def addressNumber (t : Token) : Except AsmErrorKind Byte :=
  if isHexToken t ∧ tokenNumber t = none then .error .invalidHexAddress else tokenByte t

/-- The address operand of LDA and STORE: a constant's name or a number, not a label (R96). DESIGN CHOICE (assumption 27):
an identifier that is no constant is read as a number, and is InvalidValue. -/
def resolveDataAddr (consts : NameTable) (t : Token) : Except AsmErrorKind Byte :=
  match consts.find t with
  | some v => fitByte v
  | none => addressNumber t

/-- The address operand of JMP, JZ, JNZ, CALL: a constant first, then a label, then a number (R96); an identifier in
neither table is UndefinedLabel (R99). -/
def resolveCodeAddr (consts labels : NameTable) (t : Token) : Except AsmErrorKind Byte :=
  match consts.find t with
  | some v => fitByte v
  | none =>
    match labels.find t with
    | some v => fitByte v
    | none => if isName t then .error .undefinedLabel else addressNumber t

/-- Whether the address operand of an operation may be a label: JMP, JZ, JNZ and CALL only (R96). -/
def takesLabel : Operation → Bool
  | .jmp | .jz | .jnz | .call => true
  | .hlt | .nop | .ldi | .lda | .ldr | .mov | .store | .push | .pop | .add | .addi | .sub | .subi | .mul | .muli => false
  | .div | .divi | .mod | .modi | .inc | .dec | .and | .or | .xor | .not | .cmp | .ret | .shl | .shr | .rol | .ror => false
  | .inp | .print | .jmpr | .callr => false

/-- The address operand of an operation (R96). -/
def resolveAddr (consts labels : NameTable) (op : Operation) (t : Token) : Except AsmErrorKind Byte :=
  if takesLabel op then resolveCodeAddr consts labels t else resolveDataAddr consts t

/-- The bytes of one instruction line (R98), its operands by the operation's format (R101); a wrong number of operands is
a SyntaxError (R95). -/
def emitInstr (m : Config.Encoding) (consts labels : NameTable) (op : Operation) (ts : List Token) :
    Except AsmErrorKind (List Byte) :=
  match m.shape op, ts with
  | .n, [] => .ok [m.byte op]
  | .r, [r] => (tokenReg r).map fun b => [m.byte op, b]
  | .rr, [d, s] =>
    (tokenReg d).bind fun x => (tokenReg s).map fun y => [m.byte op, (x <<< 4) ||| y]
  | .a, [a] => (resolveAddr consts labels op a).map fun b => [m.byte op, b]
  | .ri, [r, k] => (tokenReg r).bind fun x => (resolveImm consts k).map fun y => [m.byte op, x, y]
  | .ra, [r, a] => (tokenReg r).bind fun x => (resolveAddr consts labels op a).map fun y => [m.byte op, x, y]
  | _, _ => .error .syntaxError

/-- Pass 3: the bytes of every line, in order (R97, R98). -/
def emitLines (m : Config.Encoding) (consts labels : NameTable) : List (Nat × AsmLine) → Except AsmError (List Byte)
  | [] => .ok []
  | (n, x) :: rest =>
    let here : Except AsmErrorKind (List Byte) :=
      match x with
      | .blank | .label _ | .const _ _ => .ok []
      | .db bs | .string bs => .ok bs
      | .instr op ts => emitInstr m consts labels op ts
    match here with
    | .error k => .error ⟨n, k⟩
    | .ok bs => (emitLines m consts labels rest).map (bs ++ ·)

/-- The assembler: the byte buffer of a source text, or the first error (R97, R99). -/
def assembleWith (m : Config.Encoding) (src : List Char) : Except AsmError (List Byte) :=
  (parseLines 1 (sourceLines src)).bind fun ls =>
    (collectConsts [] ls).bind fun consts =>
      (collectLabels m [] 0 ls).bind fun labels => emitLines m consts labels ls

/-- The assembler at the default encoding (assumptions 1 and 2). -/
def assemble (src : List Char) : Except AsmError (List Byte) := assembleWith defaultEncoding src

end Sys2Proof.Machine
end

