-- ==== Sys2Proof/Machine/Transactions.lean ====
section
/-! DEFINITION. The host's transactions beside the Step's three outcomes (spec/70_reset_and_hazards.md): Load, Observe, the
state and outcome a Step returns (spec/30_encoding.md R86), the error codes (spec/60_exceptions.md R201), and the input
answers (spec/10_state.md R35). Reset is `State.reset` and `State.resetAt`. -/

namespace Sys2Proof.Machine

/-! ## Load (R242, R243) -/

/-- `Load(bytes, start)` (R242): all of the bytes, or ProgramTooLarge and none of them (R243). Nothing but memory changes. -/
def load (bytes : List Byte) (start : Byte) (s : State) : Result :=
  if start.toNat + bytes.length > Config.memSize then
    raise (.programTooLarge bytes.length start.toNat Config.memSize)
  else .next { s with mem := Memory.writeBytes s.mem start bytes }

/-! ## Observe (R39) -/

/-- The read-only snapshot of R39. -/
structure Snapshot where
  regs : Vector Byte Config.nregs
  pc : Byte
  sp : Byte
  flags : Byte
  memory : List Byte
  halted : Bool
  out : List Byte
  deriving DecidableEq, Repr

/-- The Observe transaction with the open parameter `FLAG_BITS` given (R39, R6). It takes a state and gives none, so it can
change nothing. -/
def observeWith (p : Config.FlagBits) (s : State) : Snapshot where
  regs := s.regs
  pc := s.pc
  sp := s.sp
  flags := flagsByte p s.flags
  memory := (List.range Config.memSize).map fun a => s.memRead (BitVec.ofNat _ a)
  halted := s.halted
  out := s.out

/-- Observe at the default `FLAG_BITS` (assumption 3). -/
def observe (s : State) : Snapshot := observeWith defaultFlagBits s

/-! ## What a Step returns (R86, R208) -/

/-- The outcome of a Step (R8): `Ok(halted)` or `Err(error)`; `refused` is the interface's third outcome, never met. -/
inductive StepOutcome where
  | ok (halted : Bool)
  | err (e : Fault)
  | refused (r : Refusal)
  deriving DecidableEq, Repr

/-- The Step as R86 gives it, a state and an outcome: an error returns the state as it was before the Step (R12, R208), so
that a further Step executes the same instruction again (R209). -/
def stepResult (s : State) : State × StepOutcome :=
  match step s with
  | .next t => (t, .ok t.halted)
  | .fault e => (s, .err e)
  | .refused r => (s, .refused r)

/-! ## The host's run loop (R221) -/

/-- Why the host's run loop stopped (R221). -/
inductive RunEnd where
  | halted
  | error (e : Fault)
  /-- The bound tripped; the document does not say what is returned then (R221). -/
  | bound
  | refused (r : Refusal)
  deriving DecidableEq, Repr

/-- The run loop: Steps until one returns `Ok(halted = true)`, or an error (the state then as R208 leaves it), or until
`maxCycles` Steps have been taken (R221). -/
def runBounded : Nat → State → State × RunEnd
  | 0, s => (s, .bound)
  | k + 1, s =>
    match stepResult s with
    | (t, .ok true) => (t, .halted)
    | (t, .ok false) => runBounded k t
    | (t, .err e) => (t, .error e)
    | (t, .refused r) => (t, .refused r)

/-! ## Input answers (R35) -/

/-- The environment lines up the answers to the INs to come (R35; assumption 8). -/
def State.withInput (s : State) (answers : List InputAnswer) : State := { s with input := answers }

/-! ## Error codes (R201) -/

/-- Which of the six errors a fault is (R201). -/
def faultKind : Fault → ErrorKind
  | .invalidOperand => .invalidOperand
  | .stackOverflow _ => .stackOverflow
  | .stackUnderflow _ => .stackUnderflow
  | .programTooLarge _ _ _ => .programTooLarge
  | .divisionByZero _ => .divisionByZero
  | .ioError => .ioError

/-- The default codes: 1 to 6 in the order of R201 (D16; assumption 4). -/
def defaultErrCode : ErrorKind → Nat
  | .invalidOperand => 1
  | .stackOverflow => 2
  | .stackUnderflow => 3
  | .programTooLarge => 4
  | .divisionByZero => 5
  | .ioError => 6

/-- The default `ERR_CODES` with its law (R6; assumption 4). -/
def defaultErrCodes : Config.ErrCodes :=
  ⟨defaultErrCode, by intro p q h; cases p <;> cases q <;> first | rfl | exact absurd h (by decide)⟩

/-- The code a Step's outcome is reported with: 0 means no error (R201). -/
def outcomeCode (c : Config.ErrCodes) : StepOutcome → Nat
  | .ok _ | .refused _ => 0
  | .err e => c.code (faultKind e)

/-- The operation a DivisionByZero names (R205). -/
def divOperation : DivOp → Operation
  | .div => .div
  | .divi => .divi
  | .mod => .mod
  | .modi => .modi

/-- The payload of DivisionByZero in a hardware encoding: the opcode byte of the operation (R205, D31). -/
def divOpcode (m : Config.OpcodeMap) (op : DivOp) : Byte := m.byte (divOperation op)

end Sys2Proof.Machine
end

