-- ==== Sys2Proof/Safety.lean ====
section
/-! DEFINITION. The terms the statements use: the spec's tables of what each instruction may write and when it raises an
error, written from spec/10_state.md R22, R24, R29, spec/20_memory.md R57 and spec/60_exceptions.md R201 and not from
the meanings; the invariant of R40; runs and their ends (spec/70_reset_and_hazards.md R254). -/

namespace Sys2Proof.Safety

open Sys2Proof.Machine

/-! ## What each instruction may write -/

/-- The register an instruction of a single-register format names, `b1[3:0]` (R72). -/
def named (b : Byte) : Reg := b.extractLsb' 0 4

/-- The register an instruction writes (R22). -/
def writesReg : Instr → Option Reg
  | .ldi rd _ | .lda rd _ | .pop rd | .inp rd => some (named rd)
  | .ldr rd _ | .mov rd _ => some rd
  | .store _ _ | .push _ | .print _ | .jmpr _ | .callr _ => none
  | .add rd _ | .sub rd _ | .mul rd _ | .div rd _ | .mod rd _ => some rd
  | .and rd _ | .or rd _ | .xor rd _ | .cmp rd _ => some rd
  | .addi rd _ | .subi rd _ | .muli rd _ | .divi rd _ | .modi rd _ => some (named rd)
  | .inc rd | .dec rd | .not rd | .shl rd | .shr rd | .rol rd | .ror rd => some (named rd)
  | .hlt | .nop | .jmp _ | .jz _ | .jnz _ | .call _ | .ret => none

/-- The registers an instruction reads (R22). -/
def readsRegs : Instr → List Reg
  | .ldi _ _ | .lda _ _ | .pop _ | .inp _ => []
  | .ldr _ rs | .mov _ rs => [rs]
  | .store rs _ | .push rs | .print rs | .jmpr rs | .callr rs => [named rs]
  | .add rd rs | .sub rd rs | .mul rd rs | .div rd rs | .mod rd rs => [rd, rs]
  | .and rd rs | .or rd rs | .xor rd rs | .cmp rd rs => [rd, rs]
  | .addi rd _ | .subi rd _ | .muli rd _ | .divi rd _ | .modi rd _ => [named rd]
  | .inc rd | .dec rd | .not rd | .shl rd | .shr rd | .rol rd | .ror rd => [named rd]
  | .hlt | .nop | .jmp _ | .jz _ | .jnz _ | .call _ | .ret => []

/-- Whether an instruction writes Z and N (R29). -/
def writesZN : Instr → Bool
  | .add _ _ | .addi _ _ | .inc _ | .sub _ _ | .subi _ _ | .dec _ | .mul _ _ | .muli _ _ => true
  | .div _ _ | .divi _ _ | .mod _ _ | .modi _ _ => true
  | .and _ _ | .or _ _ | .xor _ _ | .not _ | .cmp _ _ => true
  | .shl _ | .rol _ | .shr _ | .ror _ => true
  | .hlt | .nop | .ldi _ _ | .lda _ _ | .ldr _ _ | .mov _ _ | .store _ _ | .push _ | .pop _ => false
  | .jmp _ | .jz _ | .jnz _ | .call _ | .ret | .jmpr _ | .callr _ | .inp _ | .print _ => false

/-- Whether an instruction is CMP, which writes Z and N and leaves C (R29). -/
def isCmp : Instr → Bool
  | .cmp _ _ => true
  | _ => false

/-- Whether an instruction writes C: those that write Z and N, but CMP (R29). -/
def writesC (i : Instr) : Bool := writesZN i && !isCmp i

/-- C after an instruction that completes, for those that write it (R29, R140): carry of a sum, borrow of a difference,
overflow of a product, 0 for quotients, remainders and logic, the bit that left for shifts and rotates. -/
def carryAfter (i : Instr) (s : State) : Option Bool :=
  let x (r : Reg) : Nat := (s.getReg r).toNat
  match i with
  | .add rd rs => some (decide (255 < x rd + x rs))
  | .addi rd imm => some (decide (255 < x (named rd) + imm.toNat))
  | .inc rd => some (decide (255 < x (named rd) + 1))
  | .sub rd rs => some (decide (x rd < x rs))
  | .subi rd imm => some (decide (x (named rd) < imm.toNat))
  | .dec rd => some (decide (x (named rd) < 1))
  | .mul rd rs => some (decide (255 < x rd * x rs))
  | .muli rd imm => some (decide (255 < x (named rd) * imm.toNat))
  | .div _ _ | .divi _ _ | .mod _ _ | .modi _ _ | .and _ _ | .or _ _ | .xor _ _ | .not _ => some false
  | .shl rd | .rol rd => some (decide (128 ≤ x (named rd)))
  | .shr rd | .ror rd => some (decide (x (named rd) % 2 = 1))
  | _ => none

/-- The address and the byte an instruction stores in a state (R57). -/
def storeOf (i : Instr) (s : State) : Option (Byte × Byte) :=
  match i with
  | .store rs addr => some (addr, s.getReg (named rs))
  | .push rs => some (s.sp, s.getReg (named rs))
  | .call _ | .callr _ => some (s.sp, s.pc + 2)
  | _ => none

/-- Whether an instruction pushes a byte (R132). -/
def pushes : Instr → Bool
  | .push _ | .call _ | .callr _ => true
  | _ => false

/-- Whether an instruction pops a byte (R132). -/
def pops : Instr → Bool
  | .pop _ | .ret => true
  | _ => false

/-- Whether an instruction writes pc itself, so that retire does nothing more (R24). -/
def overridesPc (i : Instr) (s : State) : Bool :=
  match i with
  | .jmp _ | .call _ | .ret | .jmpr _ | .callr _ => true
  | .jz _ => s.flags.z
  | .jnz _ => !s.flags.z
  | _ => false

/-- The one execute-time error an operation can raise (R201, R211). -/
def executeError (i : Instr) (s : State) : Option Fault :=
  match i with
  | .push _ | .call _ | .callr _ => if s.sp = 0xEA then some (.stackOverflow 0xEA) else none
  | .pop _ | .ret => if s.sp = 0xFF then some (.stackUnderflow 0xFF) else none
  | .div _ rs => if (s.getReg rs).toNat = 0 then some (.divisionByZero .div) else none
  | .divi _ imm => if imm.toNat = 0 then some (.divisionByZero .divi) else none
  | .mod _ rs => if (s.getReg rs).toNat = 0 then some (.divisionByZero .mod) else none
  | .modi _ imm => if imm.toNat = 0 then some (.divisionByZero .modi) else none
  | .inp _ => if s.inRead = .fail then some .ioError else none
  | _ => none

/-- The error an instruction ends in, in the order of checks of R211: InvalidOperand, then the execute-time error. -/
def errorOf (i : Instr) (s : State) : Option Fault :=
  if i.wellFormed = false then some .invalidOperand else executeError i s

/-! ## Words for the result of an instruction -/

/-- The instruction completes: it answers a next state, of which `ok` holds. -/
def Completes (r : Result) (ok : State → Prop) : Prop := ∃ t, r = .next t ∧ ok t

/-- The same outcome with its next state, if there is one, changed by f: how a result depends on a part of the state. -/
def onNext (f : State → State) : Result → Result
  | .next t => .next (f t)
  | .fault e => .fault e
  | .refused r => .refused r

/-- An instruction of format R, RI or RA with register byte b: InvalidOperand above 15 (R77), else the instruction
completes and `ok` holds of the register named and the next state. -/
def CompletesOn (b : Byte) (r : Result) (ok : Reg → State → Prop) : Prop :=
  if 15 < b.toNat then r = .fault .invalidOperand else Completes r (ok (named b))

/-- pc has moved on by len, modulo 256 (R24, R25). -/
def Advances (s t : State) (len : Nat) : Prop := t.pc.toNat = (s.pc.toNat + len) % 256

/-- The flags after a result r (a number below 256): Z iff r = 0, N iff bit 7 of r, C iff c, Y as it was (R29, R31). -/
def FlagsOf (s t : State) (r : Nat) (c : Prop) : Prop :=
  (t.flags.z = true ↔ r = 0) ∧ (t.flags.n = true ↔ 128 ≤ r) ∧ (t.flags.c = true ↔ c) ∧ t.flags.y = s.flags.y

/-- `x[r]` as a number. -/
def regVal (s : State) (r : Reg) : Nat := (s.getReg r).toNat

/-- The whole effect of a flag-writing instruction: the result r in register d, the flags of r with C iff c, pc moved on. -/
def Writes (s t : State) (d : Reg) (r : Nat) (c : Prop) (len : Nat) : Prop :=
  regVal t d = r ∧ FlagsOf s t r c ∧ Advances s t len

/-- The bytes of an instruction at the default map, as numbers. -/
def encodesTo (i : Instr) (bytes : List Nat) : Prop := (encode i).map BitVec.toNat = bytes

/-! ## The invariant (R40) -/

/-- What holds in every state reachable from reset: memory in canonical form, sp in 0xEA..0xFF (R27), Y = 0 (R31). -/
abbrev Inv (s : State) : Prop := Memory.wf s.mem ∧ 0xEA ≤ s.sp.toNat ∧ s.sp.toNat ≤ 0xFF ∧ s.flags.y = false

/-- The states reachable from reset by Load and Step, with the environment free to line up any input answers
(R40, R35), for any `ENTRY`. -/
inductive Reachable (m : Config.Encoding) : State → Prop where
  | reset (entry : Byte) : Reachable m (State.resetAt entry)
  | load {s t : State} (bytes : List Byte) (start : Byte) :
      Reachable m s → load bytes start s = .next t → Reachable m t
  | step {s t : State} : Reachable m s → stepWith m s = .next t → Reachable m t
  | answers {s : State} (l : List InputAnswer) : Reachable m s → Reachable m (s.withInput l)

/-! ## Runs (R58, R254) -/

/-- Instructions executed one after the other, stopping at the first error. -/
def execAll : List Instr → State → Result
  | [], s => .next s
  | i :: rest, s =>
    match exec i s with
    | .next t => execAll rest t
    | .fault e => .fault e
    | .refused r => .refused r

/-- The address and the byte a Step stores, by R57; nothing when it is halted or the decode fails. -/
def stepStore (m : Config.Encoding) (s : State) : Option (Byte × Byte) :=
  if s.halted then none
  else
    match fetchDecode m s with
    | .ok i => storeOf i s
    | .error _ => none

/-- k Steps, each without an error, with the stores they made, the latest first. -/
def runLog (m : Config.Encoding) : Nat → State → List (Byte × Byte) → Option (State × List (Byte × Byte))
  | 0, s, log => some (s, log)
  | k + 1, s, log =>
    match stepWith m s with
    | .next t => runLog m k t ((stepStore m s).toList ++ log)
    | .fault _ | .refused _ => none

/-- A register token, `R` and its decimal number (R96). -/
def regToken (n : Nat) : Token := 'R' :: Nat.toDigits 10 n

/-- The operands of an instruction as the assembler's source writes them (R101). -/
def operandTokens : Instr → List Token
  | .hlt | .nop | .ret => []
  | .push r | .pop r | .inc r | .dec r | .not r | .shl r | .shr r | .rol r | .ror r => [regToken r.toNat]
  | .inp r | .print r | .jmpr r | .callr r => [regToken r.toNat]
  | .ldr d s | .mov d s | .add d s | .sub d s | .mul d s | .div d s | .mod d s => [regToken d.toNat, regToken s.toNat]
  | .and d s | .or d s | .xor d s | .cmp d s => [regToken d.toNat, regToken s.toNat]
  | .jmp a | .jz a | .jnz a | .call a => [Nat.toDigits 10 a.toNat]
  | .ldi r k | .addi r k | .subi r k | .muli r k | .divi r k | .modi r k => [regToken r.toNat, Nat.toDigits 10 k.toNat]
  | .lda r a | .store r a => [regToken r.toNat, Nat.toDigits 10 a.toNat]

/-- A run that has ended normally at t after k Steps from s: t is the first halted state (R254). -/
def EndsAt (m : Config.Encoding) (k : Nat) (s t : State) : Prop :=
  t.halted = true ∧ (∃ log, runLog m k s [] = some (t, log)) ∧
    ∀ j u log, j < k → runLog m j s [] = some (u, log) → u.halted = false

/-- A run that is faulted after k Steps from s: the next Step returns an error (R254). -/
def FaultsAt (m : Config.Encoding) (k : Nat) (s : State) (e : Fault) : Prop :=
  ∃ t log, runLog m k s [] = some (t, log) ∧ stepWith m t = .fault e

end Sys2Proof.Safety
end

