-- ==== Sys2Proof/Certificates/Slice0/Obligations.lean ====
section
/-! DEFINITION. The statements for the provers, each from the numbered rules of spec/. The tables they use (writesReg,
errorOf, storeOf, ...) stand in Sys2Proof/Safety.lean, written from the spec's tables and not from the meanings.
Wherever a statement names an opcode byte or a format (`encodesTo`), these are the defaults of the spec's open parameters
(spec/92_eei_decisions.md D1 to D3); wherever it says that a register byte above 15 raises InvalidOperand (`CompletesOn`),
that cause is the spec's own choice (D4). -/

open Sys2Proof Sys2Proof.Machine Sys2Proof.Safety

/-! ## Encoding and decoding -/

/-- R81, R98, V10: for every opcode map, every shape that carries the instruction's operands (the default one among them)
and every well-formed instruction, whatever two bytes follow it, the decoder reads back the instruction the encoder
wrote. That other shapes than the default carry it, and how, is the model's choice (assumption 2). -/
def Obligations.DecodeOfEncodeIsTheInstruction : Prop :=
  ∀ (m : Config.Encoding) (i : Instr) (p q : Byte), i.wellFormed = true →
    carries (m.shape (operationOf i)) (operationOf i) = true →
    decodeWith m ((encodeWith m i ++ [p, q]).getD 0 0) ((encodeWith m i ++ [p, q]).getD 1 0)
      ((encodeWith m i ++ [p, q]).getD 2 0) = .ok i

/-- R87: re-encoding a decoded instruction gives back its bytes when b0 is an assigned opcode, and does not when it is
unassigned. A valid register byte is what makes the decode answer an instruction (R77). The shapes are the default's, as
R87's "by rules R70 to R76" has them. -/
def Obligations.ReencodingGivesBackTheBytes : Prop :=
  (∀ (m : Config.Encoding) (b0 b1 b2 : Byte) (i : Instr), m.shape = shapeOf → (∃ op, m.byte op = b0) →
    decodeWith m b0 b1 b2 = .ok i → encodeWith m i = [b0, b1, b2].take (instrLength i)) ∧
  (∀ (m : Config.Encoding) (b0 b1 b2 : Byte), m.shape = shapeOf → (∀ op, m.byte op ≠ b0) →
    ∃ i, decodeWith m b0 b1 b2 = .ok i ∧ encodeWith m i ≠ [b0, b1, b2].take (instrLength i))

/-- R79, R87, V10: a byte stream of well-formed instructions decodes, each from where the one before it ends, to those
instructions, for every opcode map and all shapes that carry their operands. -/
def Obligations.ProgramStreamDecodesToItself : Prop :=
  ∀ (m : Config.Encoding) (p : List Instr),
    (∀ i ∈ p, i.wellFormed = true ∧ carries (m.shape (operationOf i)) (operationOf i) = true) →
    decodeProgram m p.length (encodeProgram m p) = some p

/-- R82, R112: an unassigned opcode byte, 0x27 to 0xFF with the default map, decodes as NOP of length 1 and re-encodes as
NOP's own opcode; a Step that fetches one only advances pc by 1. NOP's shape is N, as R82 has it; the other shapes are any. -/
def Obligations.UnassignedByteOnlyAdvancesPc : Prop :=
  (∀ b : Byte, (∀ op, defaultOpcode op ≠ b) ↔ 0x27 ≤ b.toNat) ∧
  ∀ (m : Config.Encoding) (s : State), m.shape .nop = .n → (∀ op, m.byte op ≠ s.memRead s.pc) →
    fetchDecode m s = .ok .nop ∧ lengthWith m .nop = 1 ∧ encodeWith m .nop = [m.byte .nop] ∧
    (s.halted = false → ∃ t, stepWith m s = .next t ∧ Advances s t 1 ∧ t = { s with pc := t.pc })

/-- R79: the length is known from b0 alone, by operation, shape and length of shape, for every `SHAPE`. -/
def Obligations.LengthIsKnownFromTheOpcodeByte : Prop :=
  ∀ (m : Config.Encoding) (b0 b1 b2 : Byte) (i : Instr), decodeWith m b0 b1 b2 = .ok i →
    lengthWith m i = shapeLength (m.shape (decodeOperation m b0)) ∧
    (encodeWith m i).length = lengthWith m i ∧ 1 ≤ lengthWith m i ∧ lengthWith m i ≤ 3

/-- Which encodings are refused. That a register byte above 15 is InvalidOperand is the spec's own choice
(spec/92_eei_decisions.md D4); the operations are those of spec/60_exceptions.md R202. That a shape which lacks an operand
is refused, and that no default shape does, is the model's choice (assumption 2). -/
def Obligations.RegisterByteAbove15IsRefused : Prop :=
  (∀ op, hasRegByte (shapeOf op) = true ↔
    op ∈ [Operation.ldi, .lda, .store, .push, .pop, .addi, .subi, .muli, .divi, .modi, .inc, .dec, .not, .shl, .shr,
      .rol, .ror, .inp, .print, .jmpr, .callr]) ∧
  (∀ (m : Config.Encoding) (b0 b1 b2 : Byte), decodeWith m b0 b1 b2 = .error .invalidOperand ↔
    hasRegByte (m.shape (decodeOperation m b0)) = true ∧ 15 < b1.toNat) ∧
  (∀ (m : Config.Encoding) (b0 b1 b2 : Byte) (op : Operation), decodeWith m b0 b1 b2 = .error (.missingOperand op) →
    op = decodeOperation m b0 ∧ m.shape op ≠ shapeOf op) ∧
  (∀ (m : Config.Encoding) (b0 b1 b2 : Byte) (i : Instr), decodeWith m b0 b1 b2 = .ok i → i.wellFormed = true) ∧
  ∀ (i : Instr) (s : State), i.wellFormed = false → exec i s = .fault .invalidOperand

/-- Words written out from the formats of R71 to R76 and the opcodes of R80. -/
def Obligations.SpecWordsDecode : Prop :=
  decode 0b00000000 0xFF 0xFF = .ok .hlt ∧ decode 0b00000010 0b00000011 0b01110111 = .ok (.ldi 3 0x77) ∧
  decode 0b00000101 0b01000101 0 = .ok (.mov 4 5) ∧ decode 0b00000110 0b00000001 0b10000000 = .ok (.store 1 0x80) ∧
  decode 0b00010100 0b00001111 0 = .ok (.dec 15) ∧ decode 0b00011101 0b00010000 0 = .ok (.call 0x10) ∧
  decode 0b00010111 0b11110000 0 = .ok (.xor 15 0) ∧ decode 0b11111111 0 0 = .ok .nop ∧
  decode 0b00010011 0b00010000 0 = .error .invalidOperand

/-- R98, R101: the assembler's bytes for an instruction written with plain numbers are the encoder's, for every opcode map;
its shape is the default one, for which R101 gives the operands. -/
def Obligations.AssembledInstructionIsItsEncoding : Prop :=
  ∀ (m : Config.Encoding) (consts labels : NameTable) (i : Instr), i.wellFormed = true →
    m.shape (operationOf i) = shapeOf (operationOf i) →
    (∀ t ∈ operandTokens i, consts.find t = none ∧ labels.find t = none) →
    operationNamed (mnemonicOf (operationOf i)) = some (operationOf i) ∧
    emitInstr m consts labels (operationOf i) (operandTokens i) = .ok (encodeWith m i)

/-! ## The Step -/

/-- R86: the Step. Halted: nothing fetched, nothing changed. Otherwise the bytes at pc, pc + 1, pc + 2 are decoded and the
instruction is executed, or InvalidOperand is raised; the outcome carries halted as it is after. exec retires, so at the
default length nothing is added around it; where `SHAPE` gives another length (the model's choice, assumption 2), the Step
is exec but for pc, which an instruction that does not override it moves by that length. -/
def Obligations.StepRunsTheDecodedInstruction : Prop :=
  (∀ (m : Config.Encoding) (s : State), s.halted = true → stepWith m s = .next s) ∧
  (∀ (m : Config.Encoding) (s : State) (i : Instr), s.halted = false →
    decodeWith m (s.memRead s.pc) (s.memRead (s.pc + 1)) (s.memRead (s.pc + 2)) = .ok i →
    stepWith m s =
      onNext (fun t => if overridesPc i s then t else { t with pc := s.pc + BitVec.ofNat 8 (lengthWith m i) })
        (exec i s)) ∧
  (∀ (m : Config.Encoding) (s : State) (i : Instr), s.halted = false →
    decodeWith m (s.memRead s.pc) (s.memRead (s.pc + 1)) (s.memRead (s.pc + 2)) = .ok i →
    m.shape (operationOf i) = shapeOf (operationOf i) → stepWith m s = exec i s) ∧
  (∀ (m : Config.Encoding) (s : State), s.halted = false →
    decodeWith m (s.memRead s.pc) (s.memRead (s.pc + 1)) (s.memRead (s.pc + 2)) = .error .invalidOperand →
    stepWith m s = .fault .invalidOperand) ∧
  (∀ (s : State) (i : Instr), s.halted = false →
    decode (s.memRead s.pc) (s.memRead (s.pc + 1)) (s.memRead (s.pc + 2)) = .ok i → step s = exec i s) ∧
  (∀ s : State, s.halted = false →
    (∀ i, decode (s.memRead s.pc) (s.memRead (s.pc + 1)) (s.memRead (s.pc + 2)) ≠ .ok i) →
    step s = .fault .invalidOperand) ∧
  (∀ s : State, step s = stepWith defaultEncoding s) ∧
  (∀ s t : State, step s = .next t → stepResult s = (t, .ok t.halted)) ∧
  ∀ (s : State) (e : Fault), step s = .fault e → stepResult s = (s, .err e)

/-- R32: Running and Halted. HLT is the only way into Halted, Reset the only way out; errors and Load do not change it;
any number of Steps in Halted changes nothing. -/
def Obligations.HaltedIsTerminal : Prop :=
  (∀ (k : Nat) (s : State), s.halted = true → Host.Core.run Sys2Proof.core k s = .next s) ∧
  (∀ s : State, s.halted = true → stepResult s = (s, .ok true)) ∧
  (∀ (i : Instr) (s t : State), exec i s = .next t → t.halted ≠ s.halted → i = .hlt ∧ t.halted = true) ∧
  (∀ s : State, Completes (exec .hlt s) fun t => t.halted = true) ∧
  (∀ (s t : State) (e : Fault), stepResult s = (t, .err e) → t.halted = false) ∧
  (∀ (bytes : List Byte) (start : Byte) (s t : State), load bytes start s = .next t → t.halted = s.halted) ∧
  ∀ entry : Byte, (State.resetAt entry).halted = false

/-- R208, and the repetition of R209: an error leaves the whole state as it was, still Running, and a further Step returns
the same error; the input-channel answer is consumed only by an IN that succeeds. That the answers lie in State is the
model's (assumption 8). -/
def Obligations.ErrorLeavesTheStateAsItWas : Prop :=
  (∀ (s t : State) (e : Fault), stepResult s = (t, .err e) →
    t = s ∧ t.halted = false ∧ stepResult t = (s, .err e)) ∧
  ∀ (i : Instr) (s t : State), exec i s = .next t → t.input ≠ s.input ∨ t.inCount ≠ s.inCount → ∃ rd, i = .inp rd

/-- R211: one error at most, in order: none when Halted, InvalidOperand at decode, then the one execute-time error of the
operation; an instruction that raises none completes. -/
def Obligations.ErrorsComeInTheOrderOfChecks : Prop :=
  (∀ (m : Config.Encoding) (s : State), s.halted = true → stepWith m s = .next s) ∧
  (∀ (m : Config.Encoding) (s : State), s.halted = false → fetchDecode m s = .error .invalidOperand →
    stepWith m s = .fault .invalidOperand) ∧
  ∀ (i : Instr) (s : State),
    match errorOf i s with
    | some e => exec i s = .fault e
    | none => ∃ t, exec i s = .next t

/-- R201, R203, R204: no Step is refused where the shapes carry the operands, as the default ones do (else the refusal names
the operation, assumption 2); none raises ProgramTooLarge, and the payloads of the stack errors are the bounds. -/
def Obligations.StepErrorsAreTheSpecs : Prop :=
  ∀ (m : Config.Encoding) (s : State),
    (∀ r, stepWith m s = .refused r → ∃ op, r = .missingOperand op ∧ carries (m.shape op) op = false) ∧
    (∀ r, step s ≠ .refused r) ∧
    (∀ size start max, stepWith m s ≠ .fault (.programTooLarge size start max)) ∧
    (∀ v, stepWith m s = .fault (.stackOverflow v) → v = 0xEA ∧ s.sp = 0xEA) ∧
    ∀ v, stepWith m s = .fault (.stackUnderflow v) → v = 0xFF ∧ s.sp = 0xFF

/-! ## Arithmetic -/

/-- R141 ADD, R142 ADDI, R151 INC. -/
def Obligations.AddWrapsWithCarry : Prop :=
  (∀ (rd rs : Reg) (s : State), encodesTo (.add rd rs) [0x09, 16 * rd.toNat + rs.toNat] ∧
    Completes (exec (.add rd rs) s) fun t =>
      Writes s t rd ((regVal s rd + regVal s rs) % 256) (255 < regVal s rd + regVal s rs) 2) ∧
  (∀ (rd imm : Byte) (s : State), encodesTo (.addi rd imm) [0x0A, rd.toNat, imm.toNat] ∧
    CompletesOn rd (exec (.addi rd imm) s) fun d t =>
      Writes s t d ((regVal s d + imm.toNat) % 256) (255 < regVal s d + imm.toNat) 3) ∧
  ∀ (rd : Byte) (s : State), encodesTo (.inc rd) [0x13, rd.toNat] ∧
    CompletesOn rd (exec (.inc rd) s) fun d t =>
      Writes s t d ((regVal s d + 1) % 256) (regVal s d = 255) 2

/-- R143 SUB, R144 SUBI, R152 DEC. -/
def Obligations.SubtractWrapsWithBorrow : Prop :=
  (∀ (rd rs : Reg) (s : State), encodesTo (.sub rd rs) [0x0B, 16 * rd.toNat + rs.toNat] ∧
    Completes (exec (.sub rd rs) s) fun t =>
      Writes s t rd ((regVal s rd + 256 - regVal s rs) % 256) (regVal s rd < regVal s rs) 2) ∧
  (∀ (rd imm : Byte) (s : State), encodesTo (.subi rd imm) [0x0C, rd.toNat, imm.toNat] ∧
    CompletesOn rd (exec (.subi rd imm) s) fun d t =>
      Writes s t d ((regVal s d + 256 - imm.toNat) % 256) (regVal s d < imm.toNat) 3) ∧
  ∀ (rd : Byte) (s : State), encodesTo (.dec rd) [0x14, rd.toNat] ∧
    CompletesOn rd (exec (.dec rd) s) fun d t =>
      Writes s t d ((regVal s d + 255) % 256) (regVal s d = 0) 2

/-- R145 MUL, R146 MULI. -/
def Obligations.MultiplyKeepsTheLowByte : Prop :=
  (∀ (rd rs : Reg) (s : State), encodesTo (.mul rd rs) [0x0D, 16 * rd.toNat + rs.toNat] ∧
    Completes (exec (.mul rd rs) s) fun t =>
      Writes s t rd (regVal s rd * regVal s rs % 256) (255 < regVal s rd * regVal s rs) 2) ∧
  ∀ (rd imm : Byte) (s : State), encodesTo (.muli rd imm) [0x0E, rd.toNat, imm.toNat] ∧
    CompletesOn rd (exec (.muli rd imm) s) fun d t =>
      Writes s t d (regVal s d * imm.toNat % 256) (255 < regVal s d * imm.toNat) 3

/-- R147 DIV, R148 DIVI. -/
def Obligations.DivideGivesTheFloorQuotient : Prop :=
  (∀ (rd rs : Reg) (s : State), encodesTo (.div rd rs) [0x0F, 16 * rd.toNat + rs.toNat] ∧
    if regVal s rs = 0 then exec (.div rd rs) s = .fault (.divisionByZero .div)
    else Completes (exec (.div rd rs) s) fun t => Writes s t rd (regVal s rd / regVal s rs) False 2) ∧
  ∀ (rd imm : Byte) (s : State), encodesTo (.divi rd imm) [0x10, rd.toNat, imm.toNat] ∧
    if 15 < rd.toNat then exec (.divi rd imm) s = .fault .invalidOperand
    else if imm.toNat = 0 then exec (.divi rd imm) s = .fault (.divisionByZero .divi)
    else Completes (exec (.divi rd imm) s) fun t => Writes s t (named rd) (regVal s (named rd) / imm.toNat) False 3

/-- R149 MOD, R150 MODI. -/
def Obligations.ModuloGivesTheRemainder : Prop :=
  (∀ (rd rs : Reg) (s : State), encodesTo (.mod rd rs) [0x11, 16 * rd.toNat + rs.toNat] ∧
    if regVal s rs = 0 then exec (.mod rd rs) s = .fault (.divisionByZero .mod)
    else Completes (exec (.mod rd rs) s) fun t => Writes s t rd (regVal s rd % regVal s rs) False 2) ∧
  ∀ (rd imm : Byte) (s : State), encodesTo (.modi rd imm) [0x12, rd.toNat, imm.toNat] ∧
    if 15 < rd.toNat then exec (.modi rd imm) s = .fault .invalidOperand
    else if imm.toNat = 0 then exec (.modi rd imm) s = .fault (.divisionByZero .modi)
    else Completes (exec (.modi rd imm) s) fun t => Writes s t (named rd) (regVal s (named rd) % imm.toNat) False 3

/-- R140: `a = (a div b) * b + (a rem b)` with `a rem b < b`, between what DIV and what MOD write. -/
def Obligations.QuotientAndRemainderRecombine : Prop :=
  ∀ (rd rs : Reg) (s q r : State), exec (.div rd rs) s = .next q → exec (.mod rd rs) s = .next r →
    regVal s rd = regVal q rd * regVal s rs + regVal r rd ∧ regVal r rd < regVal s rs

/-! ## Logic, compare, shift, rotate -/

/-- R160 AND, R161 OR, R162 XOR, R163 NOT: bit by bit, C cleared. -/
def Obligations.LogicWorksBitByBit : Prop :=
  (∀ (rd rs : Reg) (s : State), encodesTo (.and rd rs) [0x15, 16 * rd.toNat + rs.toNat] ∧
    Completes (exec (.and rd rs) s) fun t => Writes s t rd (regVal t rd) False 2 ∧
      ∀ k < 8, (t.getReg rd).getLsbD k = ((s.getReg rd).getLsbD k && (s.getReg rs).getLsbD k)) ∧
  (∀ (rd rs : Reg) (s : State), encodesTo (.or rd rs) [0x16, 16 * rd.toNat + rs.toNat] ∧
    Completes (exec (.or rd rs) s) fun t => Writes s t rd (regVal t rd) False 2 ∧
      ∀ k < 8, (t.getReg rd).getLsbD k = ((s.getReg rd).getLsbD k || (s.getReg rs).getLsbD k)) ∧
  (∀ (rd rs : Reg) (s : State), encodesTo (.xor rd rs) [0x17, 16 * rd.toNat + rs.toNat] ∧
    Completes (exec (.xor rd rs) s) fun t => Writes s t rd (regVal t rd) False 2 ∧
      ∀ k < 8, (t.getReg rd).getLsbD k = ((s.getReg rd).getLsbD k ^^ (s.getReg rs).getLsbD k)) ∧
  ∀ (rd : Byte) (s : State), encodesTo (.not rd) [0x18, rd.toNat] ∧
    CompletesOn rd (exec (.not rd) s) fun d t => Writes s t d (255 - regVal s d) False 2

/-- R164 CMP: the verdict 0, 1 or 2 in the first comparand's register, Z and N from it, C unchanged. -/
def Obligations.CompareWritesItsVerdict : Prop :=
  ∀ (rd rs : Reg) (s : State), encodesTo (.cmp rd rs) [0x19, 16 * rd.toNat + rs.toNat] ∧
    Completes (exec (.cmp rd rs) s) fun t =>
      Writes s t rd (if regVal s rd = regVal s rs then 0 else if regVal s rs < regVal s rd then 1 else 2)
        (s.flags.c = true) 2 ∧ t.flags.n = false

/-- R185 SHL, R186 SHR. -/
def Obligations.ShiftsMoveOneBit : Prop :=
  (∀ (rd : Byte) (s : State), encodesTo (.shl rd) [0x1F, rd.toNat] ∧
    CompletesOn rd (exec (.shl rd) s) fun d t =>
      Writes s t d (2 * regVal s d % 256) (128 ≤ regVal s d) 2) ∧
  ∀ (rd : Byte) (s : State), encodesTo (.shr rd) [0x20, rd.toNat] ∧
    CompletesOn rd (exec (.shr rd) s) fun d t =>
      Writes s t d (regVal s d / 2) (regVal s d % 2 = 1) 2 ∧ t.flags.n = false

/-- R187 ROL, R188 ROR. -/
def Obligations.RotatesCarryTheBitAround : Prop :=
  (∀ (rd : Byte) (s : State), encodesTo (.rol rd) [0x21, rd.toNat] ∧
    CompletesOn rd (exec (.rol rd) s) fun d t =>
      Writes s t d (2 * regVal s d % 256 + regVal s d / 128) (128 ≤ regVal s d) 2) ∧
  ∀ (rd : Byte) (s : State), encodesTo (.ror rd) [0x22, rd.toNat] ∧
    CompletesOn rd (exec (.ror rd) s) fun d t =>
      Writes s t d (regVal s d / 2 + 128 * (regVal s d % 2)) (regVal s d % 2 = 1) 2

/-- R187, R188, spec/95_test_vectors.md section 2.7: eight ROLs or eight RORs restore the register; ROR undoes ROL. -/
def Obligations.RotatesUndoEachOther : Prop :=
  ∀ (rd : Byte) (s : State), rd.toNat ≤ 15 →
    (Completes (execAll (List.replicate 8 (.rol rd)) s) fun t => t.getReg (named rd) = s.getReg (named rd)) ∧
    (Completes (execAll (List.replicate 8 (.ror rd)) s) fun t => t.getReg (named rd) = s.getReg (named rd)) ∧
    Completes (execAll [.rol rd, .ror rd] s) fun t => t.getReg (named rd) = s.getReg (named rd)

/-! ## Data movement, stack, control, input and output -/

/-- R120 LDI, R123 MOV. -/
def Obligations.LoadImmediateAndMove : Prop :=
  (∀ (rd imm : Byte) (s : State), encodesTo (.ldi rd imm) [0x02, rd.toNat, imm.toNat] ∧
    CompletesOn rd (exec (.ldi rd imm) s) fun d t => t.getReg d = imm ∧ t.flags = s.flags ∧ Advances s t 3) ∧
  ∀ (rd rs : Reg) (s : State), encodesTo (.mov rd rs) [0x05, 16 * rd.toNat + rs.toNat] ∧
    Completes (exec (.mov rd rs) s) fun t =>
      t.getReg rd = s.getReg rs ∧ t.getReg rs = s.getReg rs ∧ t.flags = s.flags ∧ Advances s t 2

/-- R121 LDA, R122 LDR. -/
def Obligations.LoadsReadMemory : Prop :=
  (∀ (rd addr : Byte) (s : State), encodesTo (.lda rd addr) [0x03, rd.toNat, addr.toNat] ∧
    CompletesOn rd (exec (.lda rd addr) s) fun d t =>
      t.getReg d = s.memRead addr ∧ t.flags = s.flags ∧ Advances s t 3) ∧
  ∀ (rd rs : Reg) (s : State), encodesTo (.ldr rd rs) [0x04, 16 * rd.toNat + rs.toNat] ∧
    Completes (exec (.ldr rd rs) s) fun t =>
      t.getReg rd = s.memRead (s.getReg rs) ∧ (rs ≠ rd → t.getReg rs = s.getReg rs) ∧ t.flags = s.flags ∧ Advances s t 2

/-- R124 STORE. -/
def Obligations.StoreWritesOneByte : Prop :=
  ∀ (rs addr : Byte) (s : State), encodesTo (.store rs addr) [0x06, rs.toNat, addr.toNat] ∧
    CompletesOn rs (exec (.store rs addr) s) fun r t =>
      (∀ a, t.memRead a = if a = addr then s.getReg r else s.memRead a) ∧ t.flags = s.flags ∧ Advances s t 3

/-- R130 PUSH. sp arithmetic is written modulo 256 so that the statement also holds in states no run reaches (R27). -/
def Obligations.PushWritesAtSpThenDecrements : Prop :=
  ∀ (rs : Byte) (s : State), encodesTo (.push rs) [0x07, rs.toNat] ∧
    if 15 < rs.toNat then exec (.push rs) s = .fault .invalidOperand
    else if s.sp = 0xEA then exec (.push rs) s = .fault (.stackOverflow 0xEA)
    else Completes (exec (.push rs) s) fun t =>
      (∀ a, t.memRead a = if a = s.sp then s.getReg (named rs) else s.memRead a) ∧
      t.sp.toNat = (s.sp.toNat + 255) % 256 ∧ t.getReg (named rs) = s.getReg (named rs) ∧ t.flags = s.flags ∧
      Advances s t 2

/-- R131 POP: the byte is not erased. -/
def Obligations.PopIncrementsSpThenReads : Prop :=
  ∀ (rd : Byte) (s : State), encodesTo (.pop rd) [0x08, rd.toNat] ∧
    if 15 < rd.toNat then exec (.pop rd) s = .fault .invalidOperand
    else if s.sp = 0xFF then exec (.pop rd) s = .fault (.stackUnderflow 0xFF)
    else Completes (exec (.pop rd) s) fun t =>
      t.sp.toNat = s.sp.toNat + 1 ∧ t.getReg (named rd) = s.memRead t.sp ∧ (∀ a, t.memRead a = s.memRead a) ∧
      t.flags = s.flags ∧ Advances s t 2

/-- R170 JMP, R171 JZ, R172 JNZ, R175 JMPR. -/
def Obligations.JumpsGoToTheirTargets : Prop :=
  (∀ (addr : Byte) (s : State), encodesTo (.jmp addr) [0x1A, addr.toNat] ∧
    Completes (exec (.jmp addr) s) fun t => t.pc = addr ∧ t.flags = s.flags) ∧
  (∀ (addr : Byte) (s : State), encodesTo (.jz addr) [0x1B, addr.toNat] ∧
    Completes (exec (.jz addr) s) fun t =>
      (if s.flags.z = true then t.pc = addr else Advances s t 2) ∧ t.flags = s.flags) ∧
  (∀ (addr : Byte) (s : State), encodesTo (.jnz addr) [0x1C, addr.toNat] ∧
    Completes (exec (.jnz addr) s) fun t =>
      (if s.flags.z = false then t.pc = addr else Advances s t 2) ∧ t.flags = s.flags) ∧
  ∀ (rs : Byte) (s : State), encodesTo (.jmpr rs) [0x25, rs.toNat] ∧
    CompletesOn rs (exec (.jmpr rs) s) fun r t =>
      t.pc = s.getReg r ∧ t.getReg r = s.getReg r ∧ t.flags = s.flags

/-- R173 CALL, R176 CALLR: the return address, (pc + 2) mod 256, pushed; the jump not made when the stack is full. -/
def Obligations.CallsPushTheReturnAddress : Prop :=
  (∀ (addr : Byte) (s : State), encodesTo (.call addr) [0x1D, addr.toNat] ∧
    if s.sp = 0xEA then exec (.call addr) s = .fault (.stackOverflow 0xEA)
    else Completes (exec (.call addr) s) fun t =>
      (t.memRead s.sp).toNat = (s.pc.toNat + 2) % 256 ∧ (∀ a, a ≠ s.sp → t.memRead a = s.memRead a) ∧
      t.sp.toNat = (s.sp.toNat + 255) % 256 ∧ t.pc = addr ∧ t.flags = s.flags) ∧
  ∀ (rs : Byte) (s : State), encodesTo (.callr rs) [0x26, rs.toNat] ∧
    if 15 < rs.toNat then exec (.callr rs) s = .fault .invalidOperand
    else if s.sp = 0xEA then exec (.callr rs) s = .fault (.stackOverflow 0xEA)
    else Completes (exec (.callr rs) s) fun t =>
      (t.memRead s.sp).toNat = (s.pc.toNat + 2) % 256 ∧ (∀ a, a ≠ s.sp → t.memRead a = s.memRead a) ∧
      t.sp.toNat = (s.sp.toNat + 255) % 256 ∧ t.pc = s.getReg (named rs) ∧ t.flags = s.flags

/-- R174 RET. -/
def Obligations.ReturnPopsThePc : Prop :=
  ∀ s : State, encodesTo .ret [0x1E] ∧
    if s.sp = 0xFF then exec .ret s = .fault (.stackUnderflow 0xFF)
    else Completes (exec .ret s) fun t =>
      t.sp.toNat = s.sp.toNat + 1 ∧ t.pc = s.memRead t.sp ∧ t.flags = s.flags

/-- R110 HLT, R111 NOP. After HLT every Step returns Ok(halted = true) and changes nothing. -/
def Obligations.HaltAndNop : Prop :=
  (∀ s : State, encodesTo .hlt [0x00] ∧ Completes (exec .hlt s) fun t =>
    Advances s t 1 ∧ t = { s with pc := t.pc, halted := true } ∧ stepResult t = (t, .ok true)) ∧
  ∀ s : State, encodesTo .nop [0x01] ∧ Completes (exec .nop s) fun t => Advances s t 1 ∧ t = { s with pc := t.pc }

/-- IN: all of it is the spec's own choice (spec/92_eei_decisions.md D18); that the answer lies in State and is consumed
only by an IN that succeeds is the model's (assumptions 8 and 9). -/
def Obligations.InputByteOrError : Prop :=
  ∀ (rd : Byte) (s : State), encodesTo (.inp rd) [0x23, rd.toNat] ∧
    if 15 < rd.toNat then exec (.inp rd) s = .fault .invalidOperand
    else match s.inRead with
      | .fail => exec (.inp rd) s = .fault .ioError
      | .byte b => Completes (exec (.inp rd) s) fun t =>
          t.getReg (named rd) = b ∧ t.flags = s.flags ∧ Advances s t 2 ∧
          t.input = s.input.tail ∧ t.inCount = s.inCount + 1

/-- R196 PRINT. -/
def Obligations.PrintAppendsTheByte : Prop :=
  ∀ (rs : Byte) (s : State), encodesTo (.print rs) [0x24, rs.toNat] ∧
    CompletesOn rs (exec (.print rs) s) fun r t =>
      t.out = s.out ++ [s.getReg r] ∧ t.getReg r = s.getReg r ∧ t.flags = s.flags ∧ Advances s t 2

/-! ## What every instruction leaves unchanged, and what it does not read -/

/-- R22: an instruction writes no register but its destination, and a register it does not read changes nothing but that
register's own value. -/
def Obligations.RegistersReadAndWritten : Prop :=
  (∀ (i : Instr) (s t : State), exec i s = .next t →
    ∀ r, writesReg i ≠ some r → t.getReg r = s.getReg r) ∧
  ∀ (i : Instr) (s : State) (r : Reg) (v : Byte), r ∉ readsRegs i →
    exec i (s.setReg r v) = onNext (fun t => if writesReg i = some r then t else t.setReg r v) (exec i s)

/-- R29: which flags an instruction writes and with what; every other flag, and every flag when the Step ends in an error or
finds the core Halted, is unchanged. -/
def Obligations.FlagsFollowTheTable : Prop :=
  (∀ (i : Instr) (s t : State), exec i s = .next t →
    (if writesZN i = true then
      ∃ d, writesReg i = some d ∧ (t.flags.z = true ↔ regVal t d = 0) ∧ (t.flags.n = true ↔ 128 ≤ regVal t d)
     else t.flags.z = s.flags.z ∧ t.flags.n = s.flags.n) ∧
    (writesC i = true ↔ (carryAfter i s).isSome = true) ∧
    t.flags.c = (carryAfter i s).getD s.flags.c ∧ t.flags.y = s.flags.y) ∧
  (∀ (rd rs : Reg) (s t : State), exec (.cmp rd rs) s = .next t →
    (t.flags.z = true ↔ s.getReg rd = s.getReg rs) ∧ t.flags.n = false) ∧
  (∀ (s t : State) (e : Fault), stepResult s = (t, .err e) → t.flags = s.flags) ∧
  ∀ s : State, s.halted = true → (stepResult s).1.flags = s.flags

/-- R30: of the flags, JZ and JNZ read Z, and nothing else is read by any instruction; all four are visible to Observe. -/
def Obligations.OnlyZIsEverRead : Prop :=
  (∀ (i : Instr) (s : State) (f : Flags),
    ((∃ a, i = .jz a ∨ i = .jnz a) → f.z = s.flags.z) →
    exec i { s with flags := f } = onNext (fun t => { t with flags :=
      { z := if writesZN i = true then t.flags.z else f.z, c := if writesC i = true then t.flags.c else f.c,
        n := if writesZN i = true then t.flags.n else f.n, y := f.y } }) (exec i s)) ∧
  (∀ (a : Byte) (s : State), Completes (exec (.jz a) s) fun t =>
    if s.flags.z = true then t.pc = a else Advances s t 2) ∧
  (∀ (a : Byte) (s : State), Completes (exec (.jnz a) s) fun t =>
    if s.flags.z = false then t.pc = a else Advances s t 2) ∧
  ∀ (p : Config.FlagBits) (f g : Flags), flagsByte p f = flagsByte p g → f = g

/-- R27, C5: sp is moved by PUSH, CALL, CALLR (down one), POP and RET (up one) and by nothing else, never past its bounds;
every reachable sp is in 0xEA..0xFF. -/
def Obligations.StackPointerStaysInBounds : Prop :=
  (∀ (i : Instr) (s t : State), exec i s = .next t →
    (pushes i = false → pops i = false → t.sp = s.sp) ∧
    (pushes i = true → 0xEA ≤ s.sp.toNat → 0xEA < s.sp.toNat ∧ t.sp.toNat + 1 = s.sp.toNat) ∧
    (pops i = true → s.sp.toNat < 0xFF ∧ t.sp.toNat = s.sp.toNat + 1)) ∧
  ∀ (m : Config.Encoding) (s : State), Reachable m s → 0xEA ≤ s.sp.toNat ∧ s.sp.toNat ≤ 0xFF

/-- R57: the one byte STORE, PUSH, CALL and CALLR store, at the address the table gives; every other byte of memory, and all
of it for every other instruction, reads as before. -/
def Obligations.MemoryChangesOnlyWhereStored : Prop :=
  ∀ (i : Instr) (s t : State), exec i s = .next t →
    match storeOf i s with
    | some (addr, v) => t.memRead addr = v ∧ ∀ a, a ≠ addr → t.memRead a = s.memRead a
    | none => ∀ a, t.memRead a = s.memRead a

/-- R34: only PRINT appends to out, nothing removes from it, no instruction reads it, PRINT never fails for want of room
(its one error is the register byte), and out is empty after reset. -/
def Obligations.OutputIsASideChannel : Prop :=
  (∀ (i : Instr) (s t : State), exec i s = .next t →
    ∃ l, t.out = s.out ++ l ∧ (l ≠ [] → ∃ rs, i = .print rs)) ∧
  (∀ (i : Instr) (s : State) (o : List Byte),
    exec i { s with out := o } = onNext (fun t => { t with out := o ++ t.out.drop s.out.length }) (exec i s)) ∧
  (∀ (rs : Byte) (s : State), rs.toNat ≤ 15 → ∃ t, exec (.print rs) s = .next t) ∧
  ∀ entry : Byte, (State.resetAt entry).out = []

/-- R24: an instruction that does not override pc advances it by its encoded length, modulo 256, for every `SHAPE` (an
unassigned opcode by 1, NOP's shape being N); an error and a Step in Halted do
not change pc. The override list is the document's: JMP, taken JZ/JNZ, CALL, RET, JMPR, CALLR. -/
def Obligations.RetireAdvancesByTheLength : Prop :=
  (∀ (i : Instr) (s t : State), exec i s = .next t → overridesPc i s = false → Advances s t (encode i).length) ∧
  (∀ (m : Config.Encoding) (s t : State) (i : Instr), s.halted = false → fetchDecode m s = .ok i →
    overridesPc i s = false → stepWith m s = .next t → Advances s t (encodeWith m i).length) ∧
  (∀ (m : Config.Encoding) (s t : State), m.shape .nop = .n → s.halted = false → (∀ op, m.byte op ≠ s.memRead s.pc) →
    stepWith m s = .next t → Advances s t 1) ∧
  (∀ (a : Byte) (s t : State), (exec (.jmp a) s = .next t ∨ exec (.call a) s = .next t) → t.pc = a) ∧
  (∀ (a : Byte) (s t : State), exec (.jz a) s = .next t → s.flags.z = true → t.pc = a) ∧
  (∀ (a : Byte) (s t : State), exec (.jnz a) s = .next t → s.flags.z = false → t.pc = a) ∧
  (∀ (b : Byte) (s t : State), (exec (.jmpr b) s = .next t ∨ exec (.callr b) s = .next t) → t.pc = s.getReg (named b)) ∧
  (∀ s t : State, exec .ret s = .next t → t.pc = s.memRead (s.sp + 1)) ∧
  (∀ (s t : State) (e : Fault), stepResult s = (t, .err e) → t.pc = s.pc) ∧
  ∀ s : State, s.halted = true → (stepResult s).1.pc = s.pc

/-- The input answer is used by IN and ignored by every other instruction (spec/92_eei_decisions.md D18). That the answers
lie in State is the model's (assumption 8). -/
def Obligations.OnlyInConsultsTheChannel : Prop :=
  ∀ (i : Instr) (s : State) (l : List InputAnswer) (n : Nat), (∀ rd, i ≠ .inp rd) →
    exec i { s with input := l, inCount := n } = onNext (fun t => { t with input := l, inCount := n }) (exec i s) ∧
    ∀ t, exec i s = .next t → t.input = s.input ∧ t.inCount = s.inCount

/-! ## Invariants and whole runs -/

/-- R40: every transaction keeps the invariant, from every state that meets it, for every opcode map. -/
def Obligations.EveryStepKeepsTheInvariant : Prop :=
  (∀ (m : Config.Encoding) (s t : State), Inv s → stepWith m s = .next t → Inv t) ∧
  (∀ (bytes : List Byte) (start : Byte) (s t : State), Inv s → load bytes start s = .next t → Inv t) ∧
  ∀ (s : State) (l : List InputAnswer), Inv s → Inv (s.withInput l)

/-- R40 at the start: the invariant holds after reset, whatever ENTRY is. That sp and Y have these values after reset is the
spec's own choice (R38, spec/92_eei_decisions.md D6, D7). -/
def Obligations.ResetMeetsTheInvariant : Prop :=
  Inv State.reset ∧ ∀ entry : Byte, Inv (State.resetAt entry)

/-- R38, R240: the values after Reset, all of them the spec's own choice (spec/92_eei_decisions.md D7, D21). -/
def Obligations.ResetValues : Prop :=
  ∀ entry : Byte, (∀ r, (State.resetAt entry).getReg r = 0) ∧ (State.resetAt entry).pc = entry ∧
    (State.resetAt entry).sp = 0xFF ∧ (State.resetAt entry).flags = ⟨false, false, false, false⟩ ∧
    (State.resetAt entry).halted = false ∧ (∀ a, (State.resetAt entry).memRead a = 0) ∧
    (State.resetAt entry).out = [] ∧ State.reset = State.resetAt 0

/-- R40: in every state reachable from reset by Load and Step, whatever the input answers: the invariant, 256 bytes of
memory, flags bits 7 to 4 zero (default positions), a halted core changed by no Step and by Load only in memory, out only
growing, and only by PRINT. -/
def Obligations.ReachableStatesAreLegal : Prop :=
  ∀ (m : Config.Encoding) (s : State), Reachable m s →
    Inv s ∧ (observe s).memory.length = 256 ∧ (∀ k, 4 ≤ k → (observe s).flags.getLsbD k = false) ∧
    (s.halted = true → stepWith m s = .next s) ∧
    (∀ (bytes : List Byte) (start : Byte) (t : State), load bytes start s = .next t → t = { s with mem := t.mem }) ∧
    ∀ t, stepWith m s = .next t →
      ∃ l, t.out = s.out ++ l ∧ (l ≠ [] → ∃ rs, fetchDecode m s = .ok (.print rs))

/-- The canonical form is canonical: two memories in it that read alike are the same list. -/
def Obligations.CanonicalMemoriesThatReadAlikeAreEqual : Prop :=
  ∀ m m' : Memory, Memory.wf m → Memory.wf m' → (∀ a, Memory.read m a = Memory.read m' a) → m = m'

/-- R58 (3): after any number of Steps, from any state, every address holds the byte of the latest store to it, or what it
held at the start. -/
def Obligations.EveryReadSeesTheLatestWrite : Prop :=
  ∀ (m : Config.Encoding) (k : Nat) (s t : State) (log : List (Byte × Byte)), runLog m k s [] = some (t, log) →
    ∀ a, t.memRead a = (log.lookup a).getD (s.memRead a)

/-- R61: the fetch after an instruction that stored a byte sees that byte wherever it falls in the next instruction. -/
def Obligations.NextFetchSeesTheStore : Prop :=
  ∀ (m : Config.Encoding) (i : Instr) (s t : State) (a v : Byte), exec i s = .next t → storeOf i s = some (a, v) →
    fetchDecode m t =
      decodeWith m (if t.pc = a then v else s.memRead t.pc) (if t.pc + 1 = a then v else s.memRead (t.pc + 1))
        (if t.pc + 2 = a then v else s.memRead (t.pc + 2))

/-- R130, R131: POP after PUSH gives the pushed byte and restores sp; from an sp in its bounds (R27). -/
def Obligations.PopAfterPushGivesTheByte : Prop :=
  ∀ (rs rd : Byte) (s t : State), 0xEA ≤ s.sp.toNat → rd.toNat ≤ 15 → exec (.push rs) s = .next t →
    Completes (exec (.pop rd) t) fun u => u.getReg (named rd) = s.getReg (named rs) ∧ u.sp = s.sp

/-- R173, R174, R176: a RET with the stack as the call left it goes to the byte after the call and restores sp, whatever
happened in between; from an sp in its bounds (R27). -/
def Obligations.ReturnGoesBackAfterTheCall : Prop :=
  ∀ (i : Instr) (s t u : State), (∃ b, i = .call b ∨ i = .callr b) → 0xEA ≤ s.sp.toNat → exec i s = .next t →
    u.sp = t.sp → u.memRead s.sp = t.memRead s.sp →
    Completes (exec .ret u) fun v => v.pc.toNat = (s.pc.toNat + 2) % 256 ∧ v.sp = s.sp

/-- R132, R248: from an empty stack any 21 of PUSH, CALL and CALLR succeed, address 0xEA is never written, and the 22nd
raises StackOverflow. -/
def Obligations.TwentyOneBytesFitOnTheStack : Prop :=
  ∀ (l : List Instr) (s : State), s.sp = 0xFF → (∀ i ∈ l, pushes i = true ∧ i.wellFormed = true) →
    if l.length ≤ 21 then
      Completes (execAll l s) fun t => t.sp.toNat + l.length = 0xFF ∧ t.memRead 0xEA = s.memRead 0xEA
    else execAll l s = .fault (.stackOverflow 0xEA)

/-! ## The host's transactions -/

/-- R242, R243: Load writes all of the bytes and nothing else, or fails with ProgramTooLarge and writes none; no Step raises
that error. -/
def Obligations.LoadWritesAllOrNothing : Prop :=
  (∀ (bytes : List Byte) (start : Byte) (s : State),
    if 256 < start.toNat + bytes.length then load bytes start s = .fault (.programTooLarge bytes.length start.toNat 256)
    else Completes (load bytes start s) fun t =>
      (∀ a : Byte, t.memRead a =
        if start.toNat ≤ a.toNat ∧ a.toNat < start.toNat + bytes.length then bytes.getD (a.toNat - start.toNat) 0
        else s.memRead a) ∧ t = { s with mem := t.mem }) ∧
  (∀ (start : Byte) (s : State), load [] start s = .next s) ∧
  ∀ (m : Config.Encoding) (s : State) (size start max : Nat), stepWith m s ≠ .fault (.programTooLarge size start max)

/-- R39, R28: the snapshot shows the whole state, memory as 256 bytes and the four flags at their bits of the flags byte,
every other bit 0, for every value of FLAG_BITS. -/
def Obligations.ObserveShowsTheState : Prop :=
  ∀ (p : Config.FlagBits) (s : State),
    (observeWith p s).regs = s.regs ∧ (observeWith p s).pc = s.pc ∧ (observeWith p s).sp = s.sp ∧
    (observeWith p s).halted = s.halted ∧ (observeWith p s).out = s.out ∧
    (observeWith p s).memory.length = 256 ∧
    (∀ a : Byte, (observeWith p s).memory[a.toNat]? = some (s.memRead a)) ∧
    (observeWith p s).flags.getLsbD p.z = s.flags.z ∧ (observeWith p s).flags.getLsbD p.c = s.flags.c ∧
    (observeWith p s).flags.getLsbD p.n = s.flags.n ∧ (observeWith p s).flags.getLsbD p.y = s.flags.y ∧
    ∀ k : Fin 8, k ∉ [p.z, p.c, p.n, p.y] → (observeWith p s).flags.getLsbD k = false
end

