-- ==== Sys2Proof/Laws/Decode.lean ====
section
/-! SUPPORT. The small laws of the encoding tables and of the register pair. -/

namespace Sys2Proof

theorem mem_allOperations (op : Operation) : op ∈ allOperations := by cases op <;> decide

/-- The byte of an operation decodes to that operation, for every map (R81, R85). -/
theorem decodeOperation_byte (m : Config.Encoding) (op : Operation) : decodeOperation m (m.byte op) = op := by
  have hsome : (allOperations.find? fun q => m.byte q == m.byte op).isSome := by
    rw [List.find?_isSome]; exact ⟨op, mem_allOperations op, by simp⟩
  obtain ⟨q, hq⟩ := Option.isSome_iff_exists.mp hsome
  have : m.byte q = m.byte op := by simpa using List.find?_some hq
  simp [decodeOperation, hq, m.injective q op this]

/-- A byte the map gives to no operation decodes to NOP, for every map (R85). -/
theorem decodeOperation_unassigned (m : Config.Encoding) (b : Byte) (h : ∀ op, m.byte op ≠ b) :
    decodeOperation m b = .nop := by
  have : (allOperations.find? fun q => m.byte q == b) = none := by
    rw [List.find?_eq_none]; intro q _; simpa using h q
  simp [decodeOperation, this]

@[simp] theorem pairDst_pairByte (d s : Reg) : pairDst (pairByte d s) = d := by
  revert d s; decide

@[simp] theorem pairSrc_pairByte (d s : Reg) : pairSrc (pairByte d s) = s := by
  revert d s; decide

@[simp] theorem pairByte_pair (b : Byte) : pairByte (pairDst b) (pairSrc b) = b := by
  revert b; decide

/-- An instruction is of the operation it is made from. -/
theorem operationOf_instrFrom {op : Operation} {o : Operands} {i : Instr} (h : instrFrom op o = some i) :
    operationOf i = op := by
  cases op <;> simp only [instrFrom, Option.map_eq_some_iff, Option.bind_eq_some_iff, Option.some.injEq] at h <;>
    first
    | (subst h; rfl)
    | (obtain ⟨_, _, rfl⟩ := h; rfl)
    | (obtain ⟨_, _, _, _, rfl⟩ := h; rfl)

/-- Whether a shape carries an operation's operands does not depend on the operand bytes. -/
theorem isSome_instrFrom (f : Shape) (op : Operation) (b1 b2 : Byte) :
    (instrFrom op (operandsOf f b1 b2)).isSome = carries f op := by
  cases f <;> cases op <;> rfl

/-- The default shape of an operation carries its operands. -/
theorem carries_shapeOf (op : Operation) : carries (shapeOf op) op = true := by cases op <;> rfl

/-- The one way a decode answers an instruction. -/
theorem decodeWith_ok {m : Config.Encoding} {b0 b1 b2 : Byte} {i : Instr} (h : decodeWith m b0 b1 b2 = .ok i) :
    (hasRegByte (m.shape (decodeOperation m b0)) && !validRegByte b1) = false ∧
    instrFrom (decodeOperation m b0) (operandsOf (m.shape (decodeOperation m b0)) b1 b2) = some i := by
  simp only [decodeWith] at h
  split at h
  · cases h
  · rename_i hv
    refine ⟨Bool.not_eq_true _ ▸ hv, ?_⟩
    split at h
    · cases h; assumption
    · cases h

/-- An instruction decoded is of the operation its opcode byte names. -/
theorem operationOf_decodeWith {m : Config.Encoding} {b0 b1 b2 : Byte} {i : Instr} (h : decodeWith m b0 b1 b2 = .ok i) :
    operationOf i = decodeOperation m b0 := operationOf_instrFrom (decodeWith_ok h).2

/-- The operand bytes of a format are as many as its length asks for. -/
theorem length_operandBytes (f : Shape) (i : Instr) : (operandBytes f i).length + 1 = shapeLength f := by cases f <;> rfl

/-- The encoding of an instruction is as long as the shape of its operation. -/
theorem length_encodeWith (m : Config.Encoding) (i : Instr) : (encodeWith m i).length = lengthWith m i :=
  length_operandBytes _ i

end Sys2Proof
end

