-- ==== Sys2Proof/Laws/State.lean ====
section
/-! SUPPORT. One lemma per field (and per accessor) per update of State, true by rfl. -/

namespace Sys2Proof.Machine

@[simp] theorem State.setReg_regs (s : State) (r : Reg) (v : Byte) : (s.setReg r v).regs = s.regs.set r.toNat v r.isLt := rfl
@[simp] theorem State.setReg_pc (s : State) (r : Reg) (v : Byte) : (s.setReg r v).pc = s.pc := rfl
@[simp] theorem State.setReg_sp (s : State) (r : Reg) (v : Byte) : (s.setReg r v).sp = s.sp := rfl
@[simp] theorem State.setReg_flags (s : State) (r : Reg) (v : Byte) : (s.setReg r v).flags = s.flags := rfl
@[simp] theorem State.setReg_halted (s : State) (r : Reg) (v : Byte) : (s.setReg r v).halted = s.halted := rfl
@[simp] theorem State.setReg_mem (s : State) (r : Reg) (v : Byte) : (s.setReg r v).mem = s.mem := rfl
@[simp] theorem State.setReg_out (s : State) (r : Reg) (v : Byte) : (s.setReg r v).out = s.out := rfl
@[simp] theorem State.setReg_input (s : State) (r : Reg) (v : Byte) : (s.setReg r v).input = s.input := rfl
@[simp] theorem State.setReg_inCount (s : State) (r : Reg) (v : Byte) : (s.setReg r v).inCount = s.inCount := rfl
@[simp] theorem State.setReg_memRead (s : State) (r : Reg) (v : Byte) (b : Byte) : (s.setReg r v).memRead b = s.memRead b := rfl
@[simp] theorem State.setReg_inRead (s : State) (r : Reg) (v : Byte) : (s.setReg r v).inRead = s.inRead := rfl

@[simp] theorem State.setFlags_regs (s : State) (f : Flags) : (s.setFlags f).regs = s.regs := rfl
@[simp] theorem State.setFlags_pc (s : State) (f : Flags) : (s.setFlags f).pc = s.pc := rfl
@[simp] theorem State.setFlags_sp (s : State) (f : Flags) : (s.setFlags f).sp = s.sp := rfl
@[simp] theorem State.setFlags_flags (s : State) (f : Flags) : (s.setFlags f).flags = f := rfl
@[simp] theorem State.setFlags_halted (s : State) (f : Flags) : (s.setFlags f).halted = s.halted := rfl
@[simp] theorem State.setFlags_mem (s : State) (f : Flags) : (s.setFlags f).mem = s.mem := rfl
@[simp] theorem State.setFlags_out (s : State) (f : Flags) : (s.setFlags f).out = s.out := rfl
@[simp] theorem State.setFlags_input (s : State) (f : Flags) : (s.setFlags f).input = s.input := rfl
@[simp] theorem State.setFlags_inCount (s : State) (f : Flags) : (s.setFlags f).inCount = s.inCount := rfl
@[simp] theorem State.setFlags_getReg (s : State) (f : Flags) (i : Reg) : (s.setFlags f).getReg i = s.getReg i := rfl
@[simp] theorem State.setFlags_memRead (s : State) (f : Flags) (b : Byte) : (s.setFlags f).memRead b = s.memRead b := rfl
@[simp] theorem State.setFlags_inRead (s : State) (f : Flags) : (s.setFlags f).inRead = s.inRead := rfl

@[simp] theorem State.jump_regs (s : State) (a : Byte) : (s.jump a).regs = s.regs := rfl
@[simp] theorem State.jump_pc (s : State) (a : Byte) : (s.jump a).pc = a := rfl
@[simp] theorem State.jump_sp (s : State) (a : Byte) : (s.jump a).sp = s.sp := rfl
@[simp] theorem State.jump_flags (s : State) (a : Byte) : (s.jump a).flags = s.flags := rfl
@[simp] theorem State.jump_halted (s : State) (a : Byte) : (s.jump a).halted = s.halted := rfl
@[simp] theorem State.jump_mem (s : State) (a : Byte) : (s.jump a).mem = s.mem := rfl
@[simp] theorem State.jump_out (s : State) (a : Byte) : (s.jump a).out = s.out := rfl
@[simp] theorem State.jump_input (s : State) (a : Byte) : (s.jump a).input = s.input := rfl
@[simp] theorem State.jump_inCount (s : State) (a : Byte) : (s.jump a).inCount = s.inCount := rfl
@[simp] theorem State.jump_getReg (s : State) (a : Byte) (i : Reg) : (s.jump a).getReg i = s.getReg i := rfl
@[simp] theorem State.jump_memRead (s : State) (a : Byte) (b : Byte) : (s.jump a).memRead b = s.memRead b := rfl
@[simp] theorem State.jump_inRead (s : State) (a : Byte) : (s.jump a).inRead = s.inRead := rfl

@[simp] theorem State.retire_regs (s : State) (len : Nat) : (s.retire len).regs = s.regs := rfl
@[simp] theorem State.retire_pc (s : State) (len : Nat) : (s.retire len).pc = s.pc + BitVec.ofNat 8 len := rfl
@[simp] theorem State.retire_sp (s : State) (len : Nat) : (s.retire len).sp = s.sp := rfl
@[simp] theorem State.retire_flags (s : State) (len : Nat) : (s.retire len).flags = s.flags := rfl
@[simp] theorem State.retire_halted (s : State) (len : Nat) : (s.retire len).halted = s.halted := rfl
@[simp] theorem State.retire_mem (s : State) (len : Nat) : (s.retire len).mem = s.mem := rfl
@[simp] theorem State.retire_out (s : State) (len : Nat) : (s.retire len).out = s.out := rfl
@[simp] theorem State.retire_input (s : State) (len : Nat) : (s.retire len).input = s.input := rfl
@[simp] theorem State.retire_inCount (s : State) (len : Nat) : (s.retire len).inCount = s.inCount := rfl
@[simp] theorem State.retire_getReg (s : State) (len : Nat) (i : Reg) : (s.retire len).getReg i = s.getReg i := rfl
@[simp] theorem State.retire_memRead (s : State) (len : Nat) (b : Byte) : (s.retire len).memRead b = s.memRead b := rfl
@[simp] theorem State.retire_inRead (s : State) (len : Nat) : (s.retire len).inRead = s.inRead := rfl

@[simp] theorem State.setSp_regs (s : State) (v : Byte) : (s.setSp v).regs = s.regs := rfl
@[simp] theorem State.setSp_pc (s : State) (v : Byte) : (s.setSp v).pc = s.pc := rfl
@[simp] theorem State.setSp_sp (s : State) (v : Byte) : (s.setSp v).sp = v := rfl
@[simp] theorem State.setSp_flags (s : State) (v : Byte) : (s.setSp v).flags = s.flags := rfl
@[simp] theorem State.setSp_halted (s : State) (v : Byte) : (s.setSp v).halted = s.halted := rfl
@[simp] theorem State.setSp_mem (s : State) (v : Byte) : (s.setSp v).mem = s.mem := rfl
@[simp] theorem State.setSp_out (s : State) (v : Byte) : (s.setSp v).out = s.out := rfl
@[simp] theorem State.setSp_input (s : State) (v : Byte) : (s.setSp v).input = s.input := rfl
@[simp] theorem State.setSp_inCount (s : State) (v : Byte) : (s.setSp v).inCount = s.inCount := rfl
@[simp] theorem State.setSp_getReg (s : State) (v : Byte) (i : Reg) : (s.setSp v).getReg i = s.getReg i := rfl
@[simp] theorem State.setSp_memRead (s : State) (v : Byte) (b : Byte) : (s.setSp v).memRead b = s.memRead b := rfl
@[simp] theorem State.setSp_inRead (s : State) (v : Byte) : (s.setSp v).inRead = s.inRead := rfl

@[simp] theorem State.halt_regs (s : State) : (s.halt).regs = s.regs := rfl
@[simp] theorem State.halt_pc (s : State) : (s.halt).pc = s.pc := rfl
@[simp] theorem State.halt_sp (s : State) : (s.halt).sp = s.sp := rfl
@[simp] theorem State.halt_flags (s : State) : (s.halt).flags = s.flags := rfl
@[simp] theorem State.halt_halted (s : State) : (s.halt).halted = true := rfl
@[simp] theorem State.halt_mem (s : State) : (s.halt).mem = s.mem := rfl
@[simp] theorem State.halt_out (s : State) : (s.halt).out = s.out := rfl
@[simp] theorem State.halt_input (s : State) : (s.halt).input = s.input := rfl
@[simp] theorem State.halt_inCount (s : State) : (s.halt).inCount = s.inCount := rfl
@[simp] theorem State.halt_getReg (s : State) (i : Reg) : (s.halt).getReg i = s.getReg i := rfl
@[simp] theorem State.halt_memRead (s : State) (b : Byte) : (s.halt).memRead b = s.memRead b := rfl
@[simp] theorem State.halt_inRead (s : State) : (s.halt).inRead = s.inRead := rfl

@[simp] theorem State.appendOut_regs (s : State) (v : Byte) : (s.appendOut v).regs = s.regs := rfl
@[simp] theorem State.appendOut_pc (s : State) (v : Byte) : (s.appendOut v).pc = s.pc := rfl
@[simp] theorem State.appendOut_sp (s : State) (v : Byte) : (s.appendOut v).sp = s.sp := rfl
@[simp] theorem State.appendOut_flags (s : State) (v : Byte) : (s.appendOut v).flags = s.flags := rfl
@[simp] theorem State.appendOut_halted (s : State) (v : Byte) : (s.appendOut v).halted = s.halted := rfl
@[simp] theorem State.appendOut_mem (s : State) (v : Byte) : (s.appendOut v).mem = s.mem := rfl
@[simp] theorem State.appendOut_out (s : State) (v : Byte) : (s.appendOut v).out = s.out ++ [v] := rfl
@[simp] theorem State.appendOut_input (s : State) (v : Byte) : (s.appendOut v).input = s.input := rfl
@[simp] theorem State.appendOut_inCount (s : State) (v : Byte) : (s.appendOut v).inCount = s.inCount := rfl
@[simp] theorem State.appendOut_getReg (s : State) (v : Byte) (i : Reg) : (s.appendOut v).getReg i = s.getReg i := rfl
@[simp] theorem State.appendOut_memRead (s : State) (v : Byte) (b : Byte) : (s.appendOut v).memRead b = s.memRead b := rfl
@[simp] theorem State.appendOut_inRead (s : State) (v : Byte) : (s.appendOut v).inRead = s.inRead := rfl

@[simp] theorem State.inConsume_regs (s : State) : (s.inConsume).regs = s.regs := rfl
@[simp] theorem State.inConsume_pc (s : State) : (s.inConsume).pc = s.pc := rfl
@[simp] theorem State.inConsume_sp (s : State) : (s.inConsume).sp = s.sp := rfl
@[simp] theorem State.inConsume_flags (s : State) : (s.inConsume).flags = s.flags := rfl
@[simp] theorem State.inConsume_halted (s : State) : (s.inConsume).halted = s.halted := rfl
@[simp] theorem State.inConsume_mem (s : State) : (s.inConsume).mem = s.mem := rfl
@[simp] theorem State.inConsume_out (s : State) : (s.inConsume).out = s.out := rfl
@[simp] theorem State.inConsume_input (s : State) : (s.inConsume).input = s.input.tail := rfl
@[simp] theorem State.inConsume_inCount (s : State) : (s.inConsume).inCount = s.inCount + 1 := rfl
@[simp] theorem State.inConsume_getReg (s : State) (i : Reg) : (s.inConsume).getReg i = s.getReg i := rfl
@[simp] theorem State.inConsume_memRead (s : State) (b : Byte) : (s.inConsume).memRead b = s.memRead b := rfl

@[simp] theorem State.memWrite_regs (s : State) (a v : Byte) : (s.memWrite a v).regs = s.regs := rfl
@[simp] theorem State.memWrite_pc (s : State) (a v : Byte) : (s.memWrite a v).pc = s.pc := rfl
@[simp] theorem State.memWrite_sp (s : State) (a v : Byte) : (s.memWrite a v).sp = s.sp := rfl
@[simp] theorem State.memWrite_flags (s : State) (a v : Byte) : (s.memWrite a v).flags = s.flags := rfl
@[simp] theorem State.memWrite_halted (s : State) (a v : Byte) : (s.memWrite a v).halted = s.halted := rfl
@[simp] theorem State.memWrite_mem (s : State) (a v : Byte) : (s.memWrite a v).mem = Memory.write s.mem a v := rfl
@[simp] theorem State.memWrite_out (s : State) (a v : Byte) : (s.memWrite a v).out = s.out := rfl
@[simp] theorem State.memWrite_input (s : State) (a v : Byte) : (s.memWrite a v).input = s.input := rfl
@[simp] theorem State.memWrite_inCount (s : State) (a v : Byte) : (s.memWrite a v).inCount = s.inCount := rfl
@[simp] theorem State.memWrite_getReg (s : State) (a v : Byte) (i : Reg) : (s.memWrite a v).getReg i = s.getReg i := rfl
@[simp] theorem State.memWrite_inRead (s : State) (a v : Byte) : (s.memWrite a v).inRead = s.inRead := rfl

/-- A register write seen through a register read. -/
@[simp] theorem State.setReg_getReg (s : State) (d : Reg) (v : Byte) (r : Reg) :
    (s.setReg d v).getReg r = if r = d then v else s.getReg r := by
  have h : (r = d) ↔ d.toNat = r.toNat := by rw [← BitVec.toNat_inj]; exact eq_comm
  show (s.regs.set d.toNat v d.isLt)[r.toNat]'r.isLt = if r = d then v else s.regs[r.toNat]'r.isLt
  simp [Vector.getElem_set, h]

@[simp] theorem State.setReg_getReg_self (s : State) (d : Reg) (v : Byte) : (s.setReg d v).getReg d = v := by simp

end Sys2Proof.Machine
end

