-- ==== Sys2Proof/Laws/Memory.lean ====
section
/-! SUPPORT. The laws of memory: read over write without any hypothesis, and the canonical form kept by every operation. -/

namespace Sys2Proof.Machine

theorem byte_toNat_eq {a b : Byte} : a.toNat = b.toNat ↔ a = b := BitVec.toNat_inj

@[simp] theorem Memory.read_nil (a : Byte) : Memory.read [] a = 0 := rfl

theorem Memory.read_erase (m : Memory) (a b : Byte) :
    Memory.read (Memory.erase m a) b = if b = a then 0 else Memory.read m b := by
  induction m with
  | nil => simp [Memory.erase]
  | cons p rest ih =>
    obtain ⟨k, w⟩ := p
    rw [Memory.erase] at ih ⊢
    by_cases hk : k = a.toNat
    · subst hk
      rw [List.filter_cons_of_neg (by simp), ih, Memory.read]
      by_cases hb : b = a
      · simp [hb]
      · have : ¬ a.toNat = b.toNat := fun h => hb (byte_toNat_eq.mp h).symm
        simp [this]
    · rw [List.filter_cons_of_pos (by simpa using hk)]
      simp only [Memory.read]
      rw [ih]
      by_cases hb : b = a
      · subst hb; simp [hk]
      · simp [hb]

theorem Memory.read_insert (a v : Byte) (m : Memory) (b : Byte) (h : Memory.read m a = 0)
    (habs : ∀ p ∈ m, p.1 ≠ a.toNat) :
    Memory.read (Memory.insert a v m) b = if b = a then v else Memory.read m b := by
  induction m with
  | nil =>
    simp only [Memory.insert, Memory.read]
    by_cases hb : b = a
    · simp [hb]
    · have : ¬ a.toNat = b.toNat := fun h => hb (byte_toNat_eq.mp h).symm
      simp [hb, this]
  | cons p rest ih =>
    obtain ⟨k, w⟩ := p
    have hk : k ≠ a.toNat := habs (k, w) (by simp)
    have hrest : Memory.read rest a = 0 := by simpa [Memory.read, hk] using h
    have ih := ih hrest fun q hq => habs q (by simp [hq])
    unfold Memory.insert
    split
    · by_cases hb : b = a
      · simp [Memory.read, hb]
      · have : ¬ a.toNat = b.toNat := fun h => hb (byte_toNat_eq.mp h).symm
        simp [Memory.read, hb, this]
    · simp only [Memory.read]
      rw [ih]
      by_cases hb : b = a
      · subst hb; simp [hk]
      · simp [hb]

/-- MemRead after MemWrite (R51): the byte written there, every other address as before; for any list of cells. -/
@[simp] theorem Memory.read_write (m : Memory) (a v b : Byte) :
    Memory.read (Memory.write m a v) b = if b = a then v else Memory.read m b := by
  unfold Memory.write
  split
  · rename_i hv
    rw [Memory.read_erase, hv]
  · rw [Memory.read_insert _ _ _ _ (by simp [Memory.read_erase]) (by simp [Memory.erase]), Memory.read_erase]
    split <;> rfl

/-- A memory write seen through a byte read of the state. -/
@[simp] theorem State.memWrite_memRead (s : State) (a v b : Byte) :
    (s.memWrite a v).memRead b = if b = a then v else s.memRead b := Memory.read_write s.mem a v b

theorem Memory.wf_erase {m : Memory} (a : Byte) (h : Memory.wf m) : Memory.wf (Memory.erase m a) :=
  ⟨h.1.filter _, fun p hp => h.2 p (List.mem_of_mem_filter hp)⟩

theorem Memory.mem_insert {a v : Byte} {m : Memory} {p : Host.Cell} (h : p ∈ Memory.insert a v m) :
    p = (a.toNat, v) ∨ p ∈ m := by
  induction m with
  | nil => simpa [Memory.insert] using h
  | cons q rest ih =>
    obtain ⟨k, w⟩ := q
    unfold Memory.insert at h
    split at h
    · simpa using h
    · rcases List.mem_cons.mp h with h | h
      · exact .inr (by simp [h])
      · rcases ih h with h | h
        · exact .inl h
        · exact .inr (by simp [h])

theorem Memory.wf_insert {m : Memory} {a v : Byte} (hv : v ≠ 0) (habs : ∀ p ∈ m, p.1 ≠ a.toNat) (h : Memory.wf m) :
    Memory.wf (Memory.insert a v m) := by
  refine ⟨?_, fun p hp => ?_⟩
  · induction m with
    | nil => simp [Memory.insert]
    | cons q rest ih =>
      obtain ⟨k, w⟩ := q
      have hq := List.pairwise_cons.mp h.1
      have hk : k ≠ a.toNat := habs (k, w) (by simp)
      unfold Memory.insert
      split
      · rename_i hlt
        refine List.pairwise_cons.mpr ⟨fun p hp => ?_, h.1⟩
        rcases List.mem_cons.mp hp with rfl | hp
        · exact hlt
        · exact Nat.lt_trans hlt (hq.1 p hp)
      · rename_i hge
        refine List.pairwise_cons.mpr ⟨fun p hp => ?_, ih (fun p hp => habs p (by simp [hp])) ⟨hq.2, fun p hp => h.2 p (by simp [hp])⟩⟩
        rcases Memory.mem_insert hp with rfl | hp
        · exact Nat.lt_of_le_of_ne (Nat.le_of_not_lt hge) hk
        · exact hq.1 p hp
  · rcases Memory.mem_insert hp with rfl | hp
    · exact ⟨a.isLt, hv⟩
    · exact h.2 p hp

/-- MemWrite keeps the canonical form. -/
theorem Memory.wf_write {m : Memory} (a v : Byte) (h : Memory.wf m) : Memory.wf (Memory.write m a v) := by
  unfold Memory.write
  split
  · exact Memory.wf_erase a h
  · rename_i hv
    exact Memory.wf_insert hv (by simp [Memory.erase]) (Memory.wf_erase a h)

/-- Writing a byte stream keeps the canonical form. -/
theorem Memory.wf_writeBytes {m : Memory} (a : Byte) (bytes : List Byte) (h : Memory.wf m) :
    Memory.wf (Memory.writeBytes m a bytes) := by
  induction bytes generalizing m a with
  | nil => exact h
  | cons v rest ih => exact ih (a + 1) (Memory.wf_write a v h)

/-- Memory after reset has the canonical form. -/
theorem State.resetAt_mem_wf (entry : Byte) : Memory.wf (State.resetAt entry).mem :=
  ⟨.nil, fun _ h => nomatch h⟩

end Sys2Proof.Machine
end

