-- ==== Sys2Proof/Laws/Ops.lean ====
section
/-! SUPPORT. What each shared operation can do, said once. -/

namespace Sys2Proof.Machine

@[simp] theorem raise_eq (e : Fault) : raise e = (.fault e : Result) := rfl

theorem validRegByte_iff (b : Byte) : validRegByte b = true ↔ b.toNat ≤ 15 := by
  simp only [validRegByte, decide_eq_true_eq]; exact Nat.lt_succ_iff

/-- A register byte up to 15 is resolved. -/
theorem withReg_valid {b : Byte} (h : b.toNat ≤ 15) (k : Reg → Result) : withReg b k = k (regOfByte b) := by
  rw [withReg, if_pos ((validRegByte_iff b).mpr h)]

/-- A register byte above 15 raises InvalidOperand. -/
theorem withReg_invalid {b : Byte} (h : 15 < b.toNat) (k : Reg → Result) : withReg b k = .fault .invalidOperand := by
  rw [withReg, if_neg (mt (validRegByte_iff b).mp (Nat.not_le.mpr h))]; rfl

/-- If an operand resolution ends in a next state, the register byte was valid. -/
theorem withReg_next {b : Byte} {k : Reg → Result} {t : State} (h : withReg b k = .next t) :
    b.toNat ≤ 15 ∧ k (regOfByte b) = .next t := by
  by_cases hb : b.toNat ≤ 15
  · exact ⟨hb, by rwa [withReg_valid hb] at h⟩
  · rw [withReg_invalid (Nat.not_le.mp hb)] at h; cases h

/-- A push with room in the stack. -/
theorem stackPush_room {s : State} (h : s.sp ≠ 0xEA) (v : Byte) (k : State → Result) :
    stackPush v s k = k ((s.memWrite s.sp v).setSp (s.sp - 1)) := by
  exact if_neg h

/-- A push on a full stack. -/
theorem stackPush_full {s : State} (h : s.sp = 0xEA) (v : Byte) (k : State → Result) :
    stackPush v s k = .fault (.stackOverflow 0xEA) := by
  rw [stackPush, if_pos (show s.sp = pushLimit from h), h, raise_eq]

/-- If a push ends in a next state, there was room, and k did the rest. -/
theorem stackPush_next {s t : State} {v : Byte} {k : State → Result} (h : stackPush v s k = .next t) :
    s.sp ≠ 0xEA ∧ k ((s.memWrite s.sp v).setSp (s.sp - 1)) = .next t := by
  by_cases hs : s.sp = 0xEA
  · rw [stackPush_full hs] at h; cases h
  · exact ⟨hs, by rwa [stackPush_room hs] at h⟩

/-- A pop of a stack that is not empty. -/
theorem stackPop_some {s : State} (h : s.sp ≠ 0xFF) (k : Byte → State → Result) :
    stackPop s k = k (s.memRead (s.sp + 1)) (s.setSp (s.sp + 1)) := by
  exact if_neg h

/-- A pop of an empty stack. -/
theorem stackPop_empty {s : State} (h : s.sp = 0xFF) (k : Byte → State → Result) :
    stackPop s k = .fault (.stackUnderflow 0xFF) := by
  rw [stackPop, if_pos (show s.sp = popLimit from h), h, raise_eq]

/-- If a pop ends in a next state, the stack was not empty, and k did the rest. -/
theorem stackPop_next {s t : State} {k : Byte → State → Result} (h : stackPop s k = .next t) :
    s.sp ≠ 0xFF ∧ k (s.memRead (s.sp + 1)) (s.setSp (s.sp + 1)) = .next t := by
  by_cases hs : s.sp = 0xFF
  · rw [stackPop_empty hs] at h; cases h
  · exact ⟨hs, by rwa [stackPop_some hs] at h⟩

@[simp] theorem setZNC_z (f : Flags) (r : Byte) (c : Bool) : (setZNC f r c).z = decide (r = 0) := rfl
@[simp] theorem setZNC_n (f : Flags) (r : Byte) (c : Bool) : (setZNC f r c).n = r.getLsbD 7 := rfl
@[simp] theorem setZNC_c (f : Flags) (r : Byte) (c : Bool) : (setZNC f r c).c = c := rfl
@[simp] theorem setZNC_y (f : Flags) (r : Byte) (c : Bool) : (setZNC f r c).y = f.y := rfl

/-- N is the result's upper half. -/
theorem bit7_iff (r : Byte) : r.getLsbD 7 = true ↔ 128 ≤ r.toNat := by
  rw [show r.getLsbD 7 = r.msb from rfl, BitVec.msb_eq_decide]; simp

/-- Z is the result 0. -/
theorem zero_iff (r : Byte) : decide (r = 0) = true ↔ r.toNat = 0 := by
  rw [decide_eq_true_iff, ← BitVec.toNat_inj]; rfl

/-- writeResult always ends in this next state. -/
theorem writeResult_eq (d : Reg) (r : Byte) (c : Bool) (len : Nat) (s : State) :
    writeResult d r c len s = .next (((s.setReg d r).setFlags (setZNC s.flags r c)).retire len) := rfl

/-- At the length of the default `SHAPE` the Step's retire adds nothing to the meaning's. -/
theorem retireWith_default {m : Config.Encoding} {i : Instr} (h : lengthWith m i = instrLength i) (s : State) (r : Result) :
    retireWith m i s r = r := by
  cases r <;> simp [retireWith, h]

/-- All that the Step's retire can change of a next state is pc. -/
theorem retireWith_next {m : Config.Encoding} {i : Instr} {s t : State} {r : Result} (h : retireWith m i s r = .next t) :
    ∃ u, r = .next u ∧ t = u.jump t.pc := by
  cases r with
  | next u =>
    refine ⟨u, rfl, ?_⟩
    simp only [retireWith, Host.Outcome.next.injEq] at h
    subst h; split <;> rfl
  | fault e => cases h
  | refused x => cases h

/-- The Step's retire leaves an error as it is. -/
theorem retireWith_fault {m : Config.Encoding} {i : Instr} {s : State} {r : Result} {e : Fault} :
    retireWith m i s r = .fault e ↔ r = .fault e := by
  cases r <;> simp [retireWith]

end Sys2Proof.Machine
end

