-- ==== Sys2Proof/Laws/PerInstr.lean ====
section
/-! SUPPORT. One lemma per instruction: its encoding is as long as the shape of its operation (R70, R79, R98). -/

namespace Sys2Proof.Laws

/-- The encoding of an instruction has the length of its operation's shape, for every opcode map and every shape (R70, R98). -/
def EncodeLength.Statement (i : Instr) : Prop :=
  ∀ m : Config.Encoding, (encodeWith m i).length = shapeLength (m.shape (operationOf i))

theorem EncodeLength.hlt : EncodeLength.Statement .hlt := fun m => length_encodeWith m _
theorem EncodeLength.nop : EncodeLength.Statement .nop := fun m => length_encodeWith m _
theorem EncodeLength.ldi (a b : Byte) : EncodeLength.Statement (.ldi a b) := fun m => length_encodeWith m _
theorem EncodeLength.lda (a b : Byte) : EncodeLength.Statement (.lda a b) := fun m => length_encodeWith m _
theorem EncodeLength.ldr (a b : Reg) : EncodeLength.Statement (.ldr a b) := fun m => length_encodeWith m _
theorem EncodeLength.mov (a b : Reg) : EncodeLength.Statement (.mov a b) := fun m => length_encodeWith m _
theorem EncodeLength.store (a b : Byte) : EncodeLength.Statement (.store a b) := fun m => length_encodeWith m _
theorem EncodeLength.push (a : Byte) : EncodeLength.Statement (.push a) := fun m => length_encodeWith m _
theorem EncodeLength.pop (a : Byte) : EncodeLength.Statement (.pop a) := fun m => length_encodeWith m _
theorem EncodeLength.add (a b : Reg) : EncodeLength.Statement (.add a b) := fun m => length_encodeWith m _
theorem EncodeLength.addi (a b : Byte) : EncodeLength.Statement (.addi a b) := fun m => length_encodeWith m _
theorem EncodeLength.sub (a b : Reg) : EncodeLength.Statement (.sub a b) := fun m => length_encodeWith m _
theorem EncodeLength.subi (a b : Byte) : EncodeLength.Statement (.subi a b) := fun m => length_encodeWith m _
theorem EncodeLength.mul (a b : Reg) : EncodeLength.Statement (.mul a b) := fun m => length_encodeWith m _
theorem EncodeLength.muli (a b : Byte) : EncodeLength.Statement (.muli a b) := fun m => length_encodeWith m _
theorem EncodeLength.div (a b : Reg) : EncodeLength.Statement (.div a b) := fun m => length_encodeWith m _
theorem EncodeLength.divi (a b : Byte) : EncodeLength.Statement (.divi a b) := fun m => length_encodeWith m _
theorem EncodeLength.mod (a b : Reg) : EncodeLength.Statement (.mod a b) := fun m => length_encodeWith m _
theorem EncodeLength.modi (a b : Byte) : EncodeLength.Statement (.modi a b) := fun m => length_encodeWith m _
theorem EncodeLength.inc (a : Byte) : EncodeLength.Statement (.inc a) := fun m => length_encodeWith m _
theorem EncodeLength.dec (a : Byte) : EncodeLength.Statement (.dec a) := fun m => length_encodeWith m _
theorem EncodeLength.and (a b : Reg) : EncodeLength.Statement (.and a b) := fun m => length_encodeWith m _
theorem EncodeLength.or (a b : Reg) : EncodeLength.Statement (.or a b) := fun m => length_encodeWith m _
theorem EncodeLength.xor (a b : Reg) : EncodeLength.Statement (.xor a b) := fun m => length_encodeWith m _
theorem EncodeLength.not (a : Byte) : EncodeLength.Statement (.not a) := fun m => length_encodeWith m _
theorem EncodeLength.cmp (a b : Reg) : EncodeLength.Statement (.cmp a b) := fun m => length_encodeWith m _
theorem EncodeLength.jmp (a : Byte) : EncodeLength.Statement (.jmp a) := fun m => length_encodeWith m _
theorem EncodeLength.jz (a : Byte) : EncodeLength.Statement (.jz a) := fun m => length_encodeWith m _
theorem EncodeLength.jnz (a : Byte) : EncodeLength.Statement (.jnz a) := fun m => length_encodeWith m _
theorem EncodeLength.call (a : Byte) : EncodeLength.Statement (.call a) := fun m => length_encodeWith m _
theorem EncodeLength.ret : EncodeLength.Statement .ret := fun m => length_encodeWith m _
theorem EncodeLength.shl (a : Byte) : EncodeLength.Statement (.shl a) := fun m => length_encodeWith m _
theorem EncodeLength.shr (a : Byte) : EncodeLength.Statement (.shr a) := fun m => length_encodeWith m _
theorem EncodeLength.rol (a : Byte) : EncodeLength.Statement (.rol a) := fun m => length_encodeWith m _
theorem EncodeLength.ror (a : Byte) : EncodeLength.Statement (.ror a) := fun m => length_encodeWith m _
theorem EncodeLength.inp (a : Byte) : EncodeLength.Statement (.inp a) := fun m => length_encodeWith m _
theorem EncodeLength.print (a : Byte) : EncodeLength.Statement (.print a) := fun m => length_encodeWith m _
theorem EncodeLength.jmpr (a : Byte) : EncodeLength.Statement (.jmpr a) := fun m => length_encodeWith m _
theorem EncodeLength.callr (a : Byte) : EncodeLength.Statement (.callr a) := fun m => length_encodeWith m _

end Sys2Proof.Laws
end

