-- ==== Sys2Proof/Laws/Safety.lean ====
section
/-! SUPPORT. The statements' terms over the shared operations. -/

namespace Sys2Proof.Safety

open Sys2Proof.Machine

@[simp] theorem onNext_next (f : State → State) (t : State) : onNext f (.next t) = .next (f t) := rfl
@[simp] theorem onNext_fault (f : State → State) (e : Fault) : onNext f (.fault e) = .fault e := rfl
@[simp] theorem onNext_raise (f : State → State) (e : Fault) : onNext f (raise e) = raise e := rfl

theorem onNext_ite (f : State → State) (p : Prop) [Decidable p] (a b : Result) :
    onNext f (if p then a else b) = if p then onNext f a else onNext f b := by split <;> rfl

theorem onNext_withReg (f : State → State) (b : Byte) (k : Reg → Result) :
    onNext f (withReg b k) = withReg b fun d => onNext f (k d) := by unfold withReg; split <;> rfl

theorem onNext_stackPush (f : State → State) (v : Byte) (s : State) (k : State → Result) :
    onNext f (stackPush v s k) = stackPush v s fun t => onNext f (k t) := by unfold stackPush; split <;> rfl

theorem onNext_stackPop (f : State → State) (s : State) (k : Byte → State → Result) :
    onNext f (stackPop s k) = stackPop s fun v t => onNext f (k v t) := by unfold stackPop; split <;> rfl

/-- The instructions the Step's retire leaves alone are those of the table of R24. -/
theorem writesPc_eq_overridesPc (i : Instr) (s : State) : writesPc i s = overridesPc i s := by cases i <;> rfl

/-- The register a register byte names is the operand's. -/
theorem regOfByte_eq_named (b : Byte) : regOfByte b = named b := by revert b; decide

/-- What writeResult answers is what `Writes` says, for a result and a carry that are the numbers meant. -/
theorem writeResult_writes {s : State} {d : Reg} {r : Byte} {c : Bool} {len n : Nat} {p : Prop}
    (hr : r.toNat = n) (hc : c = true ↔ p) :
    Completes (writeResult d r c len s) fun t => Writes s t d n p len := by
  subst hr
  refine ⟨_, rfl, by simp [regVal], ⟨?_, ?_, ?_, rfl⟩, by simp [Advances]⟩
  · simpa only [State.retire_flags, State.setFlags_flags, setZNC_z] using zero_iff r
  · simpa only [State.retire_flags, State.setFlags_flags, setZNC_n] using bit7_iff r
  · simpa using hc

/-- The two cases of an instruction with a register byte. -/
theorem completesOn_of {b : Byte} {k : Reg → Result} {ok : Reg → State → Prop}
    (h : Completes (k (named b)) (ok (named b))) : CompletesOn b (withReg b k) ok := by
  unfold CompletesOn
  split
  · exact withReg_invalid ‹_› k
  · rw [withReg_valid (Nat.not_lt.mp ‹_›), regOfByte_eq_named]; exact h

end Sys2Proof.Safety
end

