-- ==== Sys2Proof/Tests/Slice0.lean ====
section
/-! SUPPORT. The model's own tests. Expected results are the vectors of spec/95_test_vectors.md and the words written out
from spec/30_encoding.md R71 to R80; then, for every statement with hypotheses, a state and operands that meet them. -/

namespace Sys2Proof.Tests

open Sys2Proof.Machine Sys2Proof.Safety

/-! ## The fixed parameters (R5) -/

/-- The values of R5, and that they hold together: XLEN bits address MEM_SIZE bytes, the operations are NOPS, the largest
register byte that is taken is NREGS - 1. -/
theorem test_parameters : Config.xlen = 8 ∧ Config.nregs = 16 ∧ Config.memSize = 256 ∧ Config.nops = 39 ∧
    2 ^ Config.xlen = Config.memSize ∧ allOperations.length = Config.nops ∧
    validRegByte (BitVec.ofNat _ (Config.nregs - 1)) = true ∧ validRegByte (BitVec.ofNat _ Config.nregs) = false := by
  decide

/-! ## Well-formedness (R77) -/

theorem test_wellFormed_accepts_15 :
    [Instr.ldi 15 255, .lda 15 0, .store 15 0, .push 15, .pop 15, .addi 15 0, .subi 15 0, .muli 15 0, .divi 15 0,
      .modi 15 0, .inc 15, .dec 15, .not 15, .shl 15, .shr 15, .rol 15, .ror 15, .inp 15, .print 15, .jmpr 15, .callr 15,
      .jmp 255, .ret, .mov 15 15].all Instr.wellFormed = true := by decide

theorem test_wellFormed_refuses_16 :
    [Instr.ldi 16 0, .lda 16 0, .store 16 0, .push 16, .pop 16, .addi 16 0, .subi 16 0, .muli 16 0, .divi 16 0,
      .modi 16 0, .inc 16, .dec 16, .not 16, .shl 16, .shr 16, .rol 16, .ror 16, .inp 16, .print 16, .jmpr 16, .callr 255
      ].any Instr.wellFormed = false := by decide

/-! ## Decoding: every constructor, bit by bit from the formats and the opcode column of R80 -/

theorem test_decode_N : decode 0b00000000 0xFF 0xFF = .ok .hlt ∧ decode 0b00000001 0xFF 0xFF = .ok .nop ∧
    decode 0b00011110 0xFF 0xFF = .ok .ret := ⟨rfl, rfl, rfl⟩

theorem test_decode_RI : decode 0b00000010 0b00000011 0b01110111 = .ok (.ldi 3 0x77) ∧
    decode 0b00001010 0b00001111 0b10000000 = .ok (.addi 15 128) ∧
    decode 0b00001100 0b00000001 0b00000101 = .ok (.subi 1 5) ∧
    decode 0b00001110 0b00000010 0b00000011 = .ok (.muli 2 3) ∧
    decode 0b00010000 0b00000100 0b00001010 = .ok (.divi 4 10) ∧
    decode 0b00010010 0b00001000 0b00001001 = .ok (.modi 8 9) := ⟨rfl, rfl, rfl, rfl, rfl, rfl⟩

theorem test_decode_RA : decode 0b00000011 0b00000010 0b01000000 = .ok (.lda 2 0x40) ∧
    decode 0b00000110 0b00000001 0b10000001 = .ok (.store 1 0x81) := ⟨rfl, rfl⟩

/-- Another `SHAPE` (assumption 2): INC carries an immediate it does not use, STORE lacks its address, the rest by default. -/
def otherShapes : Config.Encoding :=
  { defaultOpcodeMap with shape := fun op => match op with | .inc => .ri | .store => .rr | op => shapeOf op }

theorem test_decode_otherShapes : decodeWith otherShapes 0x13 15 9 = .ok (.inc 15) ∧
    decodeWith otherShapes 0x13 16 9 = .error .invalidOperand ∧
    decodeWith otherShapes 0x06 0x12 0x80 = .error (.missingOperand .store) ∧
    encodeWith otherShapes (.inc 15) = [0x13, 15, 0] := ⟨rfl, rfl, rfl, rfl⟩

/-- V8 among them: MOV R4 R5, ADD R15 R0, CMP R0 R15, XOR R10 R10. -/
theorem test_decode_RR : decode 0b00000100 0b00010010 0 = .ok (.ldr 1 2) ∧ decode 0b00000101 0x45 0 = .ok (.mov 4 5) ∧
    decode 0b00001001 0xF0 0 = .ok (.add 15 0) ∧ decode 0b00001011 0b00010000 0 = .ok (.sub 1 0) ∧
    decode 0b00001101 0b00100011 0 = .ok (.mul 2 3) ∧ decode 0b00001111 0b01000001 0 = .ok (.div 4 1) ∧
    decode 0b00010001 0b00000111 0 = .ok (.mod 0 7) ∧ decode 0b00010101 0b10000001 0 = .ok (.and 8 1) ∧
    decode 0b00010110 0b00011000 0 = .ok (.or 1 8) ∧ decode 0b00010111 0xAA 0 = .ok (.xor 10 10) ∧
    decode 0b00011001 0x0F 0 = .ok (.cmp 0 15) := ⟨rfl, rfl, rfl, rfl, rfl, rfl, rfl, rfl, rfl, rfl, rfl⟩

theorem test_decode_A : decode 0b00011010 0b01000000 0 = .ok (.jmp 0x40) ∧ decode 0b00011011 0xFF 0 = .ok (.jz 0xFF) ∧
    decode 0b00011100 0x06 0 = .ok (.jnz 6) ∧ decode 0b00011101 0x10 0 = .ok (.call 0x10) := ⟨rfl, rfl, rfl, rfl⟩

theorem test_decode_R : decode 0b00000111 3 0 = .ok (.push 3) ∧ decode 0b00001000 4 0 = .ok (.pop 4) ∧
    decode 0b00010011 5 0 = .ok (.inc 5) ∧ decode 0b00010100 15 0 = .ok (.dec 15) ∧
    decode 0b00011000 2 0 = .ok (.not 2) ∧ decode 0b00011111 1 0 = .ok (.shl 1) ∧ decode 0b00100000 1 0 = .ok (.shr 1) ∧
    decode 0b00100001 1 0 = .ok (.rol 1) ∧ decode 0b00100010 1 0 = .ok (.ror 1) ∧ decode 0b00100011 2 0 = .ok (.inp 2) ∧
    decode 0b00100100 0 0 = .ok (.print 0) ∧ decode 0b00100101 3 0 = .ok (.jmpr 3) ∧
    decode 0b00100110 3 0 = .ok (.callr 3) := ⟨rfl, rfl, rfl, rfl, rfl, rfl, rfl, rfl, rfl, rfl, rfl, rfl, rfl⟩

/-- R77 and R82: register byte 16 is refused in the three formats that have one, unassigned bytes are NOP (V11). -/
theorem test_decode_refusals : decode 0x02 0x10 0x77 = .error .invalidOperand ∧
    decode 0x06 0x10 0x80 = .error .invalidOperand ∧ decode 0x13 0x10 0 = .error .invalidOperand ∧
    decode 0x14 0xFF 0 = .error .invalidOperand ∧ decode 0x27 0xFF 0xFF = .ok .nop ∧ decode 0x80 0 0 = .ok .nop ∧
    decode 0xFF 0 0 = .ok .nop := ⟨rfl, rfl, rfl, rfl, rfl, rfl, rfl⟩

/-- R98, R73: `STORE R1 0x81` and `MOV R4 R5`. -/
theorem test_encode : encode (.store 1 0x81) = [0x06, 0x01, 0x81] ∧ encode (.mov 4 5) = [0x05, 0x45] ∧
    encode .ret = [0x1E] ∧ encode (.callr 3) = [0x26, 0x03] := by decide

/-! ## One Step on a small state -/

/-- No flag set. -/
def f0 : Flags := ⟨false, false, false, false⟩

/-- The reset state with bytes from address 0 and some registers and flags set. -/
def before (bytes : List Byte) (x : List (Reg × Byte)) (f : Flags) : State :=
  x.foldl (fun s p => s.setReg p.1 p.2) { State.reset with mem := Memory.writeBytes [] 0 bytes, flags := f }

/-- Outcome, x[0], flags and pc after one Step of the bytes at address 0, from x[0], x[1] and the flags given. -/
def alu (bytes : List Byte) (a b : Byte) (f : Flags) : StepOutcome × Byte × Flags × Byte :=
  let p := stepResult (before bytes [(0, a), (1, b)] f)
  (p.2, p.1.getReg 0, p.1.flags, p.1.pc)

/-- Outcome, pc and sp after one Step. -/
def flow (s : State) : StepOutcome × Byte × Byte := ((stepResult s).2, (stepResult s).1.pc, (stepResult s).1.sp)

/-- Flags from Z, N, C. -/
def znc (z n c : Bool) : Flags := ⟨z, c, n, false⟩

theorem test_hlt : flow (before [0x00] [] f0) = (.ok true, 1, 0xFF) ∧
    flow { State.reset with pc := 0xFF } = (.ok true, 0, 0xFF) := by decide

theorem test_nop_unassigned : flow (before [0x01] [] f0) = (.ok false, 1, 0xFF) ∧
    flow (before [0x27, 0xFF] [] f0) = (.ok false, 1, 0xFF) := by decide

theorem test_halted_step : stepResult { State.reset with halted := true, pc := 1 } =
    ({ State.reset with halted := true, pc := 1 }, .ok true) := by decide

theorem test_ldi : alu [0x02, 0x00, 0x00] 0x55 0 f0 = (.ok false, 0x00, f0, 3) ∧
    (stepResult (before [0x02, 0x0F, 0xFF] [] f0)).1.getReg 15 = 0xFF := by decide

theorem test_lda : (stepResult (before [0x03, 0x05, 0x00] [] f0)).1.getReg 5 = 0x03 := by decide

theorem test_ldr : (stepResult (before [0x04, 0x22, 0, 0, 0xAB] [(2, 4)] f0)).1.getReg 2 = 0xAB ∧
    alu [0x04, 0x00] 0x01 0 f0 = (.ok false, 0x00, f0, 2) := by decide

theorem test_mov : (stepResult (before [0x05, 0x45] [(5, 0x99)] f0)).1.getReg 4 = 0x99 := by decide

theorem test_store : (stepResult (before [0x06, 0x00, 0x80] [(0, 0x5A)] f0)).1.memRead 0x80 = 0x5A := by decide

/-- A STORE into the next instruction is seen by its fetch (R61): the stored 0x00 halts. -/
theorem test_store_next : (stepResult (stepResult (before [0x06, 0x01, 0x03, 0x01] [] f0)).1).2 = .ok true := by decide

theorem test_push : flow { before [0x07, 0x03] [(3, 0xC4)] f0 with sp := 0xEB } = (.ok false, 2, 0xEA) ∧
    (stepResult { before [0x07, 0x03] [(3, 0xC4)] f0 with sp := 0xEB }).1.memRead 0xEB = 0xC4 := by decide

theorem test_push_errors : flow { before [0x07, 0x03] [] f0 with sp := 0xEA } = (.err (.stackOverflow 0xEA), 0, 0xEA) ∧
    flow { before [0x07, 0x10] [] f0 with sp := 0xEA } = (.err .invalidOperand, 0, 0xEA) := by decide

theorem test_pop : flow ({ before [0x08, 0x04] [] f0 with sp := 0xEA }.memWrite 0xEB 0x11) = (.ok false, 2, 0xEB) ∧
    (stepResult ({ before [0x08, 0x04] [] f0 with sp := 0xEA }.memWrite 0xEB 0x11)).1.getReg 4 = 0x11 := by decide

theorem test_pop_empty : flow (before [0x08, 0x00] [] f0) = (.err (.stackUnderflow 0xFF), 0, 0xFF) := by decide

theorem test_add : alu [0x09, 0x01] 0xFF 0x01 f0 = (.ok false, 0x00, znc true false true, 2) ∧
    alu [0x09, 0x01] 0x7F 0x01 f0 = (.ok false, 0x80, znc false true false, 2) := by decide

theorem test_add_same : alu [0x09, 0x00] 0x81 0 f0 = (.ok false, 0x02, znc false false true, 2) := by decide

theorem test_addi : alu [0x0A, 0x00, 0xFF] 0x05 0 f0 = (.ok false, 0x04, znc false false true, 3) := by decide

theorem test_sub : alu [0x0B, 0x01] 0x03 0x0A f0 = (.ok false, 0xF9, znc false true true, 2) ∧
    alu [0x0B, 0x01] 0x80 0x01 (znc true true true) = (.ok false, 0x7F, f0, 2) := by decide

theorem test_subi : alu [0x0C, 0x00, 0x80] 0x7F 0 f0 = (.ok false, 0xFF, znc false true true, 3) := by decide

theorem test_mul : alu [0x0D, 0x01] 0xFF 0xFF f0 = (.ok false, 0x01, znc false false true, 2) ∧
    alu [0x0D, 0x01] 0x10 0x10 f0 = (.ok false, 0x00, znc true false true, 2) := by decide

theorem test_muli : alu [0x0E, 0x00, 0x03] 0x56 0 f0 = (.ok false, 0x02, znc false false true, 3) := by decide

theorem test_div : alu [0x0F, 0x01] 0x64 0x07 (znc false false true) = (.ok false, 0x0E, f0, 2) ∧
    alu [0x0F, 0x01] 0x0A 0x00 (znc false false true) =
      (.err (.divisionByZero .div), 0x0A, znc false false true, 0) := by decide

theorem test_divi : alu [0x10, 0x00, 0x0A] 0xC8 0 f0 = (.ok false, 0x14, f0, 3) ∧
    alu [0x10, 0x10, 0x00] 0x0A 0 f0 = (.err .invalidOperand, 0x0A, f0, 0) := by decide

theorem test_mod : alu [0x11, 0x01] 0xFE 0xFF f0 = (.ok false, 0xFE, znc false true false, 2) ∧
    alu [0x11, 0x01] 0x0A 0 f0 = (.err (.divisionByZero .mod), 0x0A, f0, 0) := by decide

theorem test_modi : alu [0x12, 0x00, 0x09] 0xC8 0 f0 = (.ok false, 0x02, f0, 3) ∧
    alu [0x12, 0x00, 0x00] 0x0A 0 f0 = (.err (.divisionByZero .modi), 0x0A, f0, 0) := by decide

theorem test_inc : alu [0x13, 0x00] 0xFF 0 f0 = (.ok false, 0x00, znc true false true, 2) := by decide

theorem test_dec : alu [0x14, 0x00] 0x00 0 f0 = (.ok false, 0xFF, znc false true true, 2) := by decide

theorem test_and : alu [0x15, 0x01] 0xFF 0x80 (znc false false true) = (.ok false, 0x80, znc false true false, 2) := by
  decide

theorem test_or : alu [0x16, 0x00] 0x00 0 (znc false false true) = (.ok false, 0x00, znc true false false, 2) := by decide

theorem test_xor : alu [0x17, 0x01] 0x0F 0x05 f0 = (.ok false, 0x0A, f0, 2) := by decide

theorem test_not : alu [0x18, 0x00] 0xA5 0 f0 = (.ok false, 0x5A, f0, 2) := by decide

theorem test_cmp : alu [0x19, 0x01] 0x80 0x7F (znc true true true) = (.ok false, 0x01, znc false false true, 2) ∧
    alu [0x19, 0x01] 0x05 0x09 f0 = (.ok false, 0x02, f0, 2) := by decide

theorem test_jmp : flow (before [0x1A, 0x40] [] f0) = (.ok false, 0x40, 0xFF) := by decide

theorem test_jz : flow (before [0x1B, 0x40] [] (znc true false false)) = (.ok false, 0x40, 0xFF) ∧
    flow (before [0x1B, 0x40] [] f0) = (.ok false, 0x02, 0xFF) := by decide

theorem test_jnz : flow (before [0x1C, 0x40] [] f0) = (.ok false, 0x40, 0xFF) ∧
    flow (before [0x1C, 0x40] [] (znc true false false)) = (.ok false, 0x02, 0xFF) := by decide

/-- A CALL at 0xFF: the operand comes from 0x00, 0x01 is pushed over the opcode. -/
theorem test_call_wraps : flow ({ before [0x40] [] f0 with pc := 0xFF }.memWrite 0xFF 0x1D) = (.ok false, 0x40, 0xFE) ∧
    (stepResult ({ before [0x40] [] f0 with pc := 0xFF }.memWrite 0xFF 0x1D)).1.memRead 0xFF = 0x01 := by decide

theorem test_ret : flow ({ before [0x1E] [] f0 with sp := 0xFE }.memWrite 0xFF 0x32) = (.ok false, 0x32, 0xFF) ∧
    flow (before [0x1E] [] f0) = (.err (.stackUnderflow 0xFF), 0, 0xFF) := by decide

theorem test_shl : alu [0x1F, 0x00] 0xFF 0 f0 = (.ok false, 0xFE, znc false true true, 2) := by decide

theorem test_shr : alu [0x20, 0x00] 0xFF 0 f0 = (.ok false, 0x7F, znc false false true, 2) := by decide

theorem test_rol : alu [0x21, 0x00] 0xA5 0 f0 = (.ok false, 0x4B, znc false false true, 2) := by decide

theorem test_ror : alu [0x22, 0x00] 0xA5 0 f0 = (.ok false, 0xD2, znc false true true, 2) := by decide

theorem test_in : alu [0x24, 0x10] 0x11 0 f0 = (.err .invalidOperand, 0x11, f0, 0) ∧
    (stepResult ((before [0x23, 0x02] [] f0).withInput [.byte 0x41, .fail])).1.getReg 2 = 0x41 ∧
    (stepResult ((before [0x23, 0x02] [] f0).withInput [.byte 0x41, .fail])).1.input = [.fail] := by decide

theorem test_in_fails : stepResult ((before [0x23, 0x02] [(2, 0x11)] f0).withInput [.fail]) =
    ((before [0x23, 0x02] [(2, 0x11)] f0).withInput [.fail], .err .ioError) := by decide

theorem test_print : (stepResult { before [0x24, 0x00] [] f0 with out := [0x48] }).1.out = [0x48, 0x00] := by decide

theorem test_jmpr : flow (before [0x25, 0x03] [(3, 0x6E)] f0) = (.ok false, 0x6E, 0xFF) := by decide

theorem test_callr : flow (before [0x26, 0x03] [(3, 0x6E)] f0) = (.ok false, 0x6E, 0xFE) ∧
    flow { before [0x26, 0x10] [] f0 with sp := 0xEA } = (.err .invalidOperand, 0, 0xEA) := by decide

/-- Section 2.9: LDI R3 0x77 straddling the top of memory at 0xFE and at 0xFF. -/
theorem test_fetch_wraps :
    flow (({ before [0x77] [] f0 with pc := 0xFE }.memWrite 0xFE 0x02).memWrite 0xFF 0x03) = (.ok false, 0x01, 0xFF) ∧
    flow ({ before [0x03, 0x77] [] f0 with pc := 0xFF }.memWrite 0xFF 0x02) = (.ok false, 0x02, 0xFF) := by decide

/-- With another `SHAPE` pc moves by its length (R24), and an operation without its operands is refused by name. -/
theorem test_step_otherShapes : (∃ t, stepWith otherShapes (before [0x13, 0x00, 0x09] [] f0) = .next t ∧ t.pc = 3 ∧
      t.getReg 0 = 1) ∧
    stepWith otherShapes (before [0x06, 0x12] [] f0) = .refused (.missingOperand .store) :=
  ⟨⟨_, rfl, by decide, by decide⟩, rfl⟩

/-! ## Reset, Load, Observe, the host's questions -/

/-- Section 2.10: one Step from reset with nothing loaded halts at 0x01. -/
theorem test_step_from_reset : stepResult State.reset = ({ State.reset with pc := 1, halted := true }, .ok true) := by
  decide

theorem test_load : (∃ t, load [0xAA, 0xBB] 0xFE State.reset = .next t ∧ t.mem = [(0xFE, 0xAA), (0xFF, 0xBB)]) ∧
    load [0xAA, 0xBB] 0xFF State.reset = .fault (.programTooLarge 2 255 256) := ⟨⟨_, rfl, by decide⟩, rfl⟩

theorem test_observe : (observe { State.reset with flags := ⟨true, false, true, false⟩ }).flags = 0b00000101 := by decide

/-- P4 of section 3: the run ends in DivisionByZero at pc = 0x06 with R0 still 10. -/
theorem test_run_P4 : (runBounded 4 (before [0x02, 0, 0x0A, 0x02, 1, 0, 0x0F, 0x01, 0] [] f0)).2 =
    .error (.divisionByZero .div) := by decide

theorem test_error_codes : outcomeCode defaultErrCodes (.ok true) = 0 ∧
    outcomeCode defaultErrCodes (.err .invalidOperand) = 1 ∧ outcomeCode defaultErrCodes (.err (.stackOverflow 0xEA)) = 2 ∧
    outcomeCode defaultErrCodes (.err (.divisionByZero .modi)) = 5 ∧ outcomeCode defaultErrCodes (.err .ioError) = 6 ∧
    divOpcode defaultOpcodeMap .modi = 0x12 := by decide

theorem test_decodeTableWord : decodeTableWord 24 0x770302 = some (.ldi 3 0x77) ∧
    decodeTableWord 16 0x4505 = some (.mov 4 5) ∧ decodeTableWord 8 0x1E = some .ret ∧
    decodeTableWord 16 0x1013 = none := by decide

theorem test_withFetchWord : (stepResult (State.reset.withFetchWord 24 0x770302)).1.getReg 3 = 0x77 ∧
    (stepResult ({ State.reset with pc := 0xFF, halted := true }.withFetchWord 16 0x4505)).1.pc = 0x01 := by decide

theorem test_memory_canonical : Memory.write (Memory.write [] 3 7) 3 0 = [] ∧
    Memory.write (Memory.write [] 9 1) 3 7 = [(3, 7), (9, 1)] := by decide

/-! ## The assembler: the vectors of spec/95_test_vectors.md section 2.11 -/

theorem test_assemble : assemble "NOP\nloop:\nDEC R1\nJNZ loop\nHLT".toList = .ok [0x01, 0x14, 0x01, 0x1C, 0x01, 0x00] ∧
    assemble "JMP end\n.DB 1 2 0x03\nend:\nHLT".toList = .ok [0x1A, 0x05, 0x01, 0x02, 0x03, 0x00] := ⟨rfl, rfl⟩

theorem test_assemble_const : assemble ".CONST VAL 0x0A\nLDI R0 VAL\nHLT".toList = .ok [0x02, 0x00, 0x0A, 0x00] ∧
    assemble ".STRING \"HI!\"".toList = .ok [0x48, 0x49, 0x21] ∧
    assemble "MOV R4 R5 ; copy".toList = .ok [0x05, 0x45] := ⟨rfl, rfl, rfl⟩

theorem test_assemble_errors : assemble "JMP nowhere".toList = .error ⟨1, .undefinedLabel⟩ ∧
    assemble "FOO R1".toList = .error ⟨1, .syntaxError⟩ ∧ assemble "LDI R16 1".toList = .error ⟨1, .invalidRegister⟩ ∧
    assemble "LDI R0 256".toList = .error ⟨1, .invalidValue⟩ ∧
    assemble "ADD R0".toList = .error ⟨1, .syntaxError⟩ := ⟨rfl, rfl, rfl, rfl, rfl⟩

/-! ## Witnesses: for every statement with hypotheses, a state and operands that meet them, at the ends of their ranges -/

/-- A state with sp and the bytes at address 0 given. -/
def atSp (sp : Byte) (bytes : List Byte) : State := { before bytes [] f0 with sp := sp }

/-- A state that reads the answer a in its next IN. -/
def answering (a : InputAnswer) : State := State.reset.withInput [a]

theorem witness_DecodeOfEncode : (Instr.addi 15 255).wellFormed = true ∧
    carries (defaultEncoding.shape .addi) .addi = true ∧ (Instr.inc 15).wellFormed = true ∧
    carries (otherShapes.shape .inc) .inc = true := by decide

theorem witness_Reencoding : defaultEncoding.shape = shapeOf ∧ (∃ op, defaultEncoding.byte op = 0x26) ∧
    decodeWith defaultEncoding 0x26 15 0 = .ok (.callr 15) ∧ (∀ op, defaultEncoding.byte op ≠ 0x27) :=
  ⟨rfl, ⟨.callr, rfl⟩, rfl, fun op => by cases op <;> decide⟩

theorem witness_ProgramStream :
    ∀ i ∈ [Instr.inc 15, .jmp 255, .nop, .store 0 0, .mov 15 15], i.wellFormed = true ∧
      carries (defaultEncoding.shape (operationOf i)) (operationOf i) = true := by decide

theorem witness_UnassignedByte : otherShapes.shape .nop = .n ∧ defaultEncoding.shape .nop = .n ∧ (before [0x27] [] f0).halted = false ∧
    ∀ op, defaultEncoding.byte op ≠ (before [0x27] [] f0).memRead (before [0x27] [] f0).pc :=
  ⟨rfl, rfl, rfl, fun op => by cases op <;> decide⟩

theorem witness_LengthIsKnown : decodeWith defaultEncoding 0x02 15 0 = .ok (.ldi 15 0) ∧
    decodeWith defaultEncoding 0xFF 255 255 = .ok .nop ∧ decodeWith otherShapes 0x13 0 7 = .ok (.inc 0) := ⟨rfl, rfl, rfl⟩

theorem witness_RegisterByte : decodeWith defaultEncoding 0x13 15 0 = .ok (.inc 15) ∧
    decodeWith otherShapes 0x06 0 0 = .error (.missingOperand .store) ∧
    (Instr.inc 16).wellFormed = false ∧ 15 < (16 : Byte).toNat ∧ ¬ 15 < (15 : Byte).toNat := ⟨rfl, rfl, by decide⟩

theorem witness_Assembled : (Instr.jmp 7).wellFormed = true ∧ otherShapes.shape .jmp = shapeOf .jmp ∧
    ∀ t ∈ operandTokens (.jmp 7), NameTable.find [("A".toList, 1)] t = none ∧ NameTable.find [("B".toList, 2)] t = none := by
  decide

theorem witness_Step : ({ State.reset with halted := true }).halted = true ∧ State.reset.halted = false ∧
    decodeWith otherShapes ((before [0x13] [] f0).memRead 0) ((before [0x13] [] f0).memRead 1)
      ((before [0x13] [] f0).memRead 2) = .ok (.inc 0) ∧
    decode (State.reset.memRead State.reset.pc) (State.reset.memRead (State.reset.pc + 1))
      (State.reset.memRead (State.reset.pc + 2)) = .ok .hlt ∧ defaultEncoding.shape .hlt = shapeOf .hlt ∧
    decode ((before [0x13, 16] [] f0).memRead 0) ((before [0x13, 16] [] f0).memRead 1)
      ((before [0x13, 16] [] f0).memRead 2) = .error .invalidOperand ∧
    (∃ t, step State.reset = .next t) ∧ step (before [0x1E] [] f0) = .fault (.stackUnderflow 0xFF) :=
  ⟨rfl, rfl, rfl, rfl, rfl, rfl, ⟨_, rfl⟩, rfl⟩

theorem witness_Halted : (∃ t, exec .hlt State.reset = .next t ∧ t.halted ≠ State.reset.halted) ∧
    stepResult (before [0x1E] [] f0) = (before [0x1E] [] f0, .err (.stackUnderflow 0xFF)) ∧
    (∃ t, load [1] 255 State.reset = .next t) := ⟨⟨_, rfl, by decide⟩, by decide, ⟨_, rfl⟩⟩

theorem witness_ErrorLeaves : stepResult (before [0x0F, 0x01] [] f0) =
    (before [0x0F, 0x01] [] f0, .err (.divisionByZero .div)) ∧
    (∃ t, exec (.inp 0) (answering (.byte 1)) = .next t ∧ t.input ≠ (answering (.byte 1)).input) :=
  ⟨by decide, ⟨_, rfl, by decide⟩⟩

theorem witness_ErrorsInOrder : fetchDecode defaultEncoding (before [0x10, 16, 0] [] f0) = .error .invalidOperand ∧
    errorOf (.divi 16 0) State.reset = some .invalidOperand ∧
    errorOf (.divi 15 0) State.reset = some (.divisionByZero .divi) ∧ errorOf (.divi 15 1) State.reset = none ∧
    errorOf (.push 16) (atSp 0xEA []) = some .invalidOperand ∧
    errorOf (.callr 15) (atSp 0xEA []) = some (.stackOverflow 0xEA) ∧ errorOf (.call 0) (atSp 0xEB []) = none ∧
    errorOf .ret (atSp 0xFF []) = some (.stackUnderflow 0xFF) ∧ errorOf (.pop 0) (atSp 0xFE []) = none ∧
    errorOf (.inp 0) (answering .fail) = some .ioError := ⟨rfl, by decide⟩

theorem witness_StepErrors : stepWith defaultEncoding (atSp 0xEA [0x1D]) = .fault (.stackOverflow 0xEA) ∧
    stepWith defaultEncoding (atSp 0xFF [0x1E]) = .fault (.stackUnderflow 0xFF) ∧
    stepWith otherShapes (before [0x06] [] f0) = .refused (.missingOperand .store) := ⟨rfl, rfl, rfl⟩

/-- Both cases of `CompletesOn`, and both of DIV and MOD, of DIVI and MODI. -/
theorem witness_Arithmetic : 15 < (16 : Byte).toNat ∧ ¬ 15 < (15 : Byte).toNat ∧ regVal State.reset 1 = 0 ∧
    regVal (before [] [(1, 1)] f0) 1 ≠ 0 ∧ (0 : Byte).toNat = 0 ∧ (1 : Byte).toNat ≠ 0 := by decide

theorem witness_Recombine : (∃ q, exec (.div 0 1) (before [] [(0, 255), (1, 255)] f0) = .next q) ∧
    ∃ r, exec (.mod 0 1) (before [] [(0, 255), (1, 255)] f0) = .next r := ⟨⟨_, rfl⟩, ⟨_, rfl⟩⟩

/-- The three verdicts. -/
theorem witness_Compare : regVal State.reset 0 = regVal State.reset 1 ∧
    regVal (before [] [(0, 1)] f0) 1 < regVal (before [] [(0, 1)] f0) 0 ∧
    regVal (before [] [(1, 255)] f0) 0 < regVal (before [] [(1, 255)] f0) 1 := by decide

theorem witness_RotatesUndo : (15 : Byte).toNat ≤ 15 := by decide

/-- The full stack and the last free slot; the empty stack and one byte on it. -/
theorem witness_Stack : (atSp 0xEA []).sp = 0xEA ∧ (atSp 0xEB []).sp ≠ 0xEA ∧ (atSp 0xFF []).sp = 0xFF ∧
    (atSp 0xFE []).sp ≠ 0xFF := by decide

theorem witness_Jumps : (before [] [] (znc true false false)).flags.z = true ∧ State.reset.flags.z = false := by decide

theorem witness_Input : (answering .fail).inRead = .fail ∧ (answering (.byte 0)).inRead = .byte 0 := by decide

theorem witness_Registers : (∃ t, exec (.mov 1 15) State.reset = .next t) ∧ writesReg (.mov 1 15) ≠ some 15 ∧
    (0 : Reg) ∉ readsRegs (.mov 1 15) ∧ (1 : Reg) ∉ readsRegs (.mov 1 15) := ⟨⟨_, rfl⟩, by decide⟩

theorem witness_Flags : (∃ t, exec (.add 0 1) State.reset = .next t) ∧ writesZN (.add 0 1) = true ∧
    (∃ t, exec (.ldi 0 0) State.reset = .next t) ∧ writesZN (.ldi 0 0) = false ∧
    (∃ t, exec (.cmp 0 1) State.reset = .next t) ∧
    stepResult (before [0x1E] [] f0) = (before [0x1E] [] f0, .err (.stackUnderflow 0xFF)) ∧
    ({ State.reset with halted := true }).halted = true :=
  ⟨⟨_, rfl⟩, rfl, ⟨_, rfl⟩, rfl, ⟨_, rfl⟩, by decide, rfl⟩

/-- Flags that agree in Z alone, for JZ and JNZ; flags that agree in nothing, for the others; equal flags bytes. -/
theorem witness_OnlyZ : ((∃ a, Instr.jz 5 = .jz a ∨ Instr.jz 5 = .jnz a) →
      (Flags.mk false true true true).z = State.reset.flags.z) ∧
    ((∃ a, Instr.nop = .jz a ∨ Instr.nop = .jnz a) → (Flags.mk true true true true).z = State.reset.flags.z) ∧
    flagsByte defaultFlagBits (znc true true true) = flagsByte defaultFlagBits (znc true true true) :=
  ⟨fun _ => rfl, fun h => absurd h (by rintro ⟨a, h | h⟩ <;> cases h), rfl⟩

theorem witness_StackPointer : (∃ t, exec (.push 0) (atSp 0xEB []) = .next t) ∧ 0xEA ≤ (atSp 0xEB []).sp.toNat ∧
    (∃ t, exec (.pop 0) (atSp 0xFE []) = .next t) ∧ pops (.pop 0) = true ∧ pushes (.push 0) = true ∧
    pushes .nop = false ∧ pops .nop = false ∧ (∃ t, exec .nop State.reset = .next t) :=
  ⟨⟨_, rfl⟩, by decide, ⟨_, rfl⟩, rfl, rfl, rfl, rfl, ⟨_, rfl⟩⟩

theorem witness_Reachable : Reachable defaultEncoding State.reset := .reset 0

theorem witness_Reachable_step : ∃ t, stepWith defaultEncoding State.reset = .next t ∧
    Reachable defaultEncoding t ∧ t.halted = true := ⟨_, rfl, .step (.reset 0) rfl, by decide⟩

theorem witness_Memory : (∃ t, exec (.store 1 0xFF) State.reset = .next t) ∧
    storeOf (.store 1 0xFF) State.reset = some (0xFF, 0) ∧ (∃ t, exec .nop State.reset = .next t) ∧
    storeOf .nop State.reset = none := ⟨⟨_, rfl⟩, by decide, ⟨_, rfl⟩, rfl⟩

theorem witness_Output : (∃ t, exec (.print 15) State.reset = .next t) ∧ (15 : Byte).toNat ≤ 15 := ⟨⟨_, rfl⟩, by decide⟩

theorem witness_Retire : defaultEncoding.shape .nop = .n ∧
    fetchDecode otherShapes (before [0x13] [] f0) = .ok (.inc 0) ∧
    (∃ t, stepWith otherShapes (before [0x13] [] f0) = .next t) ∧ (∃ t, exec .hlt State.reset = .next t) ∧ overridesPc .hlt State.reset = false ∧
    overridesPc (.jz 9) State.reset = false ∧ (∃ t, exec (.jmp 255) State.reset = .next t) ∧
    (∃ t, exec (.call 255) State.reset = .next t) ∧ (∃ t, exec (.jz 9) (before [] [] (znc true false false)) = .next t) ∧
    (∃ t, exec (.jnz 9) State.reset = .next t) ∧ (∃ t, exec (.jmpr 15) State.reset = .next t) ∧
    (∃ t, exec (.callr 15) State.reset = .next t) ∧ (∃ t, exec .ret (atSp 0xFE []) = .next t) ∧
    (∃ t, stepWith defaultEncoding (before [0x27] [] f0) = .next t) :=
  ⟨rfl, rfl, ⟨_, rfl⟩, ⟨_, rfl⟩, rfl, rfl, ⟨_, rfl⟩, ⟨_, rfl⟩, ⟨_, rfl⟩, ⟨_, rfl⟩, ⟨_, rfl⟩, ⟨_, rfl⟩, ⟨_, rfl⟩, ⟨_, rfl⟩⟩

theorem witness_OnlyIn : (∀ rd, Instr.print 0 ≠ .inp rd) ∧ ∃ t, exec (.print 0) State.reset = .next t :=
  ⟨fun _ h => (nomatch h), ⟨_, rfl⟩⟩

theorem witness_Inv : Inv State.reset ∧ (∃ t, stepWith defaultEncoding State.reset = .next t) ∧
    (∃ t, load [1, 2] 254 State.reset = .next t) := ⟨by decide, ⟨_, rfl⟩, ⟨_, rfl⟩⟩

theorem witness_ReachableLegal : Reachable defaultEncoding State.reset ∧ (∃ t, load [7] 255 State.reset = .next t) ∧
    (∃ t, stepWith defaultEncoding State.reset = .next t) := ⟨.reset 0, ⟨_, rfl⟩, ⟨_, rfl⟩⟩

theorem witness_Canonical : Memory.wf [(0, 1), (255, 7)] ∧ ∀ a, Memory.read [(0, 1)] a = Memory.read [(0, 1)] a :=
  ⟨by decide, fun _ => rfl⟩

theorem witness_LatestWrite : ∃ t, runLog defaultEncoding 2 (before [0x06, 0x01, 0xFF, 0x00] [(1, 9)] f0) [] =
    some (t, [(0xFF, 9)]) := ⟨_, rfl⟩

theorem witness_NextFetch : (∃ t, exec (.store 1 3) State.reset = .next t) ∧
    storeOf (.store 1 3) State.reset = some (3, 0) := ⟨⟨_, rfl⟩, by decide⟩

theorem witness_PopAfterPush : 0xEA ≤ (atSp 0xEB []).sp.toNat ∧ (15 : Byte).toNat ≤ 15 ∧
    ∃ t, exec (.push 15) (atSp 0xEB []) = .next t := ⟨by decide, by decide, ⟨_, rfl⟩⟩

theorem witness_ReturnAfterCall : (∃ b, Instr.callr 15 = .call b ∨ Instr.callr 15 = .callr b) ∧
    0xEA ≤ (atSp 0xFF []).sp.toNat ∧ ∃ t, exec (.callr 15) (atSp 0xFF []) = .next t ∧
      ∃ u : State, u.sp = t.sp ∧ u.memRead (atSp 0xFF []).sp = t.memRead (atSp 0xFF []).sp :=
  ⟨⟨15, .inr rfl⟩, by decide, ⟨_, rfl, _, rfl, rfl⟩⟩

theorem witness_TwentyOne : State.reset.sp = 0xFF ∧
    (∀ i ∈ List.replicate 21 (Instr.push 0), pushes i = true ∧ i.wellFormed = true) ∧
    (∀ i ∈ List.replicate 22 (Instr.call 0), pushes i = true ∧ i.wellFormed = true) :=
  ⟨rfl, by simp [pushes, Instr.wellFormed, Instr.regByte, validRegByte],
    by simp [pushes, Instr.wellFormed, Instr.regByte]⟩

/-- The largest program that fits at 0x80 and the smallest that does not (V6). -/
theorem witness_Load : ¬ 256 < (0x80 : Byte).toNat + (List.replicate 128 (1 : Byte)).length ∧
    256 < (0x80 : Byte).toNat + (List.replicate 129 (1 : Byte)).length := by simp

theorem witness_Observe : (4 : Fin 8) ∉ [defaultFlagBits.z, defaultFlagBits.c, defaultFlagBits.n, defaultFlagBits.y] := by
  decide

theorem witness_EndsAt : ∃ t, EndsAt defaultEncoding 1 State.reset t :=
  ⟨_, by exact rfl, ⟨_, rfl⟩, fun j u log hj h => by
    obtain rfl : j = 0 := by omega
    cases h; rfl⟩

theorem witness_FaultsAt : FaultsAt defaultEncoding 0 (before [0x1E] [] f0) (.stackUnderflow 0xFF) := ⟨_, _, rfl, rfl⟩

end Sys2Proof.Tests
end

/-! # The state: what every instruction and every transaction may change, and what it reads

The next state is given by components (`nextState`), each by its table of Sys2Proof/Safety.lean. One theorem, `exec_eq`, says
that the meanings follow the tables; the frame, non-interference and invariant statements are then facts about tables. -/

namespace Sys2Proof.Proofs

open Sys2Proof.Machine Sys2Proof.Safety

/-! ## What an instruction does, by the component of the state -/

/-- The byte an instruction leaves in its destination register (`writesReg`); 0x00, unused, where it has none. -/
def resultOf (i : Instr) (s : State) : Byte :=
  let x := s.getReg
  match i with
  | .ldi _ imm => imm
  | .lda _ addr => s.memRead addr
  | .ldr _ rs => s.memRead (x rs)
  | .mov _ rs => x rs
  | .pop _ => s.memRead (s.sp + 1)
  | .add rd rs => x rd + x rs
  | .addi rd imm => x (named rd) + imm
  | .inc rd => x (named rd) + 1
  | .sub rd rs => x rd - x rs
  | .subi rd imm => x (named rd) - imm
  | .dec rd => x (named rd) - 1
  | .mul rd rs => x rd * x rs
  | .muli rd imm => x (named rd) * imm
  | .div rd rs => x rd / x rs
  | .divi rd imm => x (named rd) / imm
  | .mod rd rs => x rd % x rs
  | .modi rd imm => x (named rd) % imm
  | .and rd rs => x rd &&& x rs
  | .or rd rs => x rd ||| x rs
  | .xor rd rs => x rd ^^^ x rs
  | .not rd => ~~~ x (named rd)
  | .cmp rd rs => compareVerdict (x rd) (x rs)
  | .shl rd => x (named rd) <<< 1
  | .shr rd => x (named rd) >>> 1
  | .rol rd => (x (named rd)).rotateLeft 1
  | .ror rd => (x (named rd)).rotateRight 1
  | .inp _ => match s.inRead with
    | .byte b => b
    | .fail => 0
  | .hlt | .nop | .store _ _ | .push _ | .print _ => 0
  | .jmp _ | .jz _ | .jnz _ | .call _ | .ret | .jmpr _ | .callr _ => 0

/-- Where an instruction that overrides pc goes (R24); unused for the others. -/
def targetOf (i : Instr) (s : State) : Byte :=
  match i with
  | .jmp a | .jz a | .jnz a | .call a => a
  | .jmpr b | .callr b => s.getReg (named b)
  | .ret => s.memRead (s.sp + 1)
  | _ => 0

/-- pc after an instruction that completes, retired by the length `SHAPE` gives it (R24). -/
def pcAfter (m : Config.Encoding) (i : Instr) (s : State) : Byte :=
  if overridesPc i s then targetOf i s else s.pc + BitVec.ofNat 8 (lengthWith m i)

/-- The registers after an instruction that completes (R22). -/
def regsAfter (i : Instr) (s : State) : Vector Byte Config.nregs :=
  match writesReg i with
  | some d => s.regs.set d.toNat (resultOf i s) d.isLt
  | none => s.regs

/-- sp after an instruction that completes (R27). -/
def spAfter (i : Instr) (s : State) : Byte :=
  if pushes i then s.sp - 1 else if pops i then s.sp + 1 else s.sp

/-- The flags after an instruction that completes (R29). -/
def flagsAfter (i : Instr) (s : State) : Flags where
  z := if writesZN i then decide (resultOf i s = 0) else s.flags.z
  c := (carryAfter i s).getD s.flags.c
  n := if writesZN i then (resultOf i s).getLsbD 7 else s.flags.n
  y := s.flags.y

/-- halted after an instruction that completes (R32). -/
def haltedAfter : Instr → Bool → Bool
  | .hlt, _ => true
  | _, h => h

/-- Memory after an instruction that completes (R57). -/
def memAfter (i : Instr) (s : State) : Memory :=
  match storeOf i s with
  | some (a, v) => Memory.write s.mem a v
  | none => s.mem

/-- out after an instruction that completes (R34). -/
def outAfter : Instr → State → List Byte
  | .print rs, s => s.out ++ [s.getReg (named rs)]
  | _, s => s.out

/-- The lined-up input answers after an instruction that completes (R35). -/
def inputAfter : Instr → List InputAnswer → List InputAnswer
  | .inp _, l => l.tail
  | _, l => l

/-- The number of INs that succeeded, after an instruction that completes. -/
def inCountAfter : Instr → Nat → Nat
  | .inp _, n => n + 1
  | _, n => n

/-- The state after an instruction that completes, retired by the length `SHAPE` gives it: each component by its table.
`exec_eq` and `stepWith_eq` tie it to the model. -/
def nextState (m : Config.Encoding) (i : Instr) (s : State) : State where
  regs := regsAfter i s
  pc := pcAfter m i s
  sp := spAfter i s
  flags := flagsAfter i s
  halted := haltedAfter i s.halted
  mem := memAfter i s
  out := outAfter i s
  input := inputAfter i s.input
  inCount := inCountAfter i s.inCount

/-- The next state by the tables, or the error given. -/
def nextOr (m : Config.Encoding) (i : Instr) (s : State) (e : Option Fault) : Result :=
  e.elim (.next (nextState m i s)) .fault

/-! ## The meanings follow the tables -/

/-- An instruction with a register byte raises InvalidOperand or does what the tables say of the register named. -/
theorem withReg_eq_nextOr {m : Config.Encoding} {i : Instr} {s : State} {b : Byte} {k : Reg → Result}
    (hb : i.regByte = some b) (hk : k (named b) = nextOr m i s (executeError i s)) :
    withReg b k = nextOr m i s (errorOf i s) := by
  have hw : i.wellFormed = validRegByte b := by rw [Instr.wellFormed, hb]
  rw [withReg, errorOf, hw, regOfByte_eq_named, hk]
  cases validRegByte b <;> rfl

theorem executeError_of_pushes {i : Instr} (h : pushes i = true) (s : State) :
    executeError i s = if s.sp = 0xEA then some (.stackOverflow 0xEA) else none := by
  cases i <;> simp_all [pushes, executeError]

theorem executeError_of_pops {i : Instr} (h : pops i = true) (s : State) :
    executeError i s = if s.sp = 0xFF then some (.stackUnderflow 0xFF) else none := by
  cases i <;> simp_all [pops, executeError]

theorem stackPush_eq_nextOr {m : Config.Encoding} {i : Instr} {s : State} {v : Byte} {k : State → Result}
    (hi : pushes i = true) (hk : k ((s.memWrite s.sp v).setSp (s.sp - 1)) = .next (nextState m i s)) :
    stackPush v s k = nextOr m i s (executeError i s) := by
  rw [executeError_of_pushes hi]
  split
  · next hs => exact stackPush_full hs v k
  · next hs => rw [stackPush_room hs, hk]; rfl

theorem stackPop_eq_nextOr {m : Config.Encoding} {i : Instr} {s : State} {k : Byte → State → Result}
    (hi : pops i = true) (hk : k (s.memRead (s.sp + 1)) (s.setSp (s.sp + 1)) = .next (nextState m i s)) :
    stackPop s k = nextOr m i s (executeError i s) := by
  rw [executeError_of_pops hi]
  split
  · next hs => exact stackPop_empty hs k
  · next hs => rw [stackPop_some hs, hk]; rfl

/-- Division and remainder: the divisor is tested before anything is written (R205). -/
theorem divisor_eq_nextOr {m : Config.Encoding} {i : Instr} {s : State} {b : Byte} {op : DivOp} {r : Result}
    (he : executeError i s = if b.toNat = 0 then some (.divisionByZero op) else none)
    (hr : r = .next (nextState m i s)) :
    (if b = 0 then raise (.divisionByZero op) else r) = nextOr m i s (executeError i s) := by
  rw [he, hr]
  by_cases hb : b = 0
  · rw [if_pos hb, if_pos (by rw [hb]; rfl)]; rfl
  · rw [if_neg hb, if_neg (mt (zero_iff b).mpr (by simpa using hb))]; rfl

theorem topBit_eq (a : Byte) : topBit a = decide (128 ≤ a.toNat) :=
  Bool.eq_iff_iff.mpr ((bit7_iff a).trans decide_eq_true_iff.symm)

theorem bottomBit_eq (a : Byte) : bottomBit a = decide (a.toNat % 2 = 1) := by
  rw [bottomBit, BitVec.getLsbD, Nat.testBit_zero]

/-- What an instruction does, said once: the error of the table of errors, else the next state by the tables. -/
theorem exec_eq (i : Instr) (s : State) : exec i s = nextOr defaultEncoding i s (errorOf i s) := by
  cases i with
  | hlt | nop | ldr | mov | add | sub | mul | and | or | xor | cmp | jmp => rfl
  | ldi | lda | store | addi | subi | muli | inc | dec | not | print | jmpr =>
    simp only [exec, execLdi, execLda, execStore, execAddi, execSubi, execMuli, execInc, execDec, execNot, execPrint,
      execJmpr]
    exact withReg_eq_nextOr rfl rfl
  | shl | shr | rol | ror =>
    simp only [exec, execShl, execShr, execRol, execRor, topBit_eq, bottomBit_eq]
    exact withReg_eq_nextOr rfl rfl
  | div | mod =>
    simp only [exec, execDiv, execMod, divInto, modInto]
    exact divisor_eq_nextOr rfl rfl
  | divi | modi =>
    simp only [exec, execDivi, execModi, divInto, modInto]
    exact withReg_eq_nextOr rfl (divisor_eq_nextOr rfl rfl)
  | jz | jnz =>
    obtain ⟨_, _, _, ⟨z, _, _, _⟩, _, _, _, _, _⟩ := s
    cases z <;> rfl
  | call =>
    simp only [exec, execCall]
    exact stackPush_eq_nextOr rfl rfl
  | ret =>
    simp only [exec, execRet]
    exact stackPop_eq_nextOr rfl rfl
  | push | callr =>
    simp only [exec, execPush, execCallr]
    exact withReg_eq_nextOr rfl (stackPush_eq_nextOr rfl rfl)
  | pop =>
    simp only [exec, execPop]
    exact withReg_eq_nextOr rfl (stackPop_eq_nextOr rfl rfl)
  | inp rd =>
    simp only [exec, execIn]
    refine withReg_eq_nextOr rfl ?_
    cases hr : s.inRead with
    | fail => rw [executeError, if_pos hr]; rfl
    | byte b =>
      obtain rfl : resultOf (.inp rd) s = b := by simp [resultOf, hr]
      rw [executeError, if_neg (by simp [hr])]; rfl

/-! ## Results by the tables, taken apart -/

theorem nextOr_next {m : Config.Encoding} {i : Instr} {s t : State} {e : Option Fault}
    (h : nextOr m i s e = .next t) : e = none ∧ t = nextState m i s := by
  cases e with
  | none => cases h; exact ⟨rfl, rfl⟩
  | some e => cases h

/-- An instruction completes only where the table gives no error, in the state of the tables. -/
theorem exec_next {i : Instr} {s t : State} (h : exec i s = .next t) :
    errorOf i s = none ∧ t = nextState defaultEncoding i s := nextOr_next (exec_eq i s ▸ h)

theorem exec_eq_next {i : Instr} {s : State} (h : errorOf i s = none) :
    exec i s = .next (nextState defaultEncoding i s) := by rw [exec_eq, h]; rfl

/-- The Step's retire makes the length that of `SHAPE`. -/
theorem retireWith_nextOr (m : Config.Encoding) (i : Instr) (s : State) (e : Option Fault) :
    retireWith m i s (nextOr defaultEncoding i s e) = nextOr m i s e := by
  cases e with
  | some e => rfl
  | none =>
    simp only [nextOr, Option.elim_none, retireWith, writesPc_eq_overridesPc]
    cases ho : overridesPc i s with
    | true => simp [nextState, pcAfter, ho]
    | false =>
      by_cases hl : lengthWith m i = instrLength i
      · simp [nextState, pcAfter, ho, hl, instrLength]
      · simp [nextState, pcAfter, ho, hl, State.jump]

/-- A running core executes what it decodes, by the tables. -/
theorem stepWith_eq {m : Config.Encoding} {s : State} {i : Instr} (hs : s.halted = false) (hi : fetchDecode m s = .ok i) :
    stepWith m s = nextOr m i s (errorOf i s) := by
  have hstep : stepWith m s = retireWith m i s (exec i s) := by rw [stepWith, hs, hi]; rfl
  rw [hstep, exec_eq, retireWith_nextOr]

theorem stepWith_halted {s : State} (m : Config.Encoding) (hs : s.halted = true) : stepWith m s = .next s := if_pos hs

/-- A Step answers a next state in two ways: from a halted core the same state, from a running one that of the tables. -/
theorem stepWith_next {m : Config.Encoding} {s t : State} (h : stepWith m s = .next t) :
    (s.halted = true ∧ t = s) ∨
    ∃ i, s.halted = false ∧ fetchDecode m s = .ok i ∧ errorOf i s = none ∧ t = nextState m i s := by
  cases hs : s.halted with
  | true => rw [stepWith_halted m hs] at h; cases h; exact .inl ⟨rfl, rfl⟩
  | false =>
    cases hd : fetchDecode m s with
    | ok i => exact .inr ⟨i, rfl, rfl, nextOr_next (stepWith_eq hs hd ▸ h)⟩
    | error e => rw [stepWith, hs, hd] at h; cases e <;> cases h

/-- A Step of a halted core returns the state and `Ok(halted = true)` (R32). -/
theorem stepResult_halted {s : State} (hs : s.halted = true) : stepResult s = (s, .ok true) := by
  rw [stepResult, step, stepWith_halted _ hs]
  exact congrArg (fun b => (s, StepOutcome.ok b)) hs

/-- An error comes from a running core and returns the state as it was (R208). -/
theorem stepResult_err {s t : State} {e : Fault} (h : stepResult s = (t, .err e)) : t = s ∧ s.halted = false := by
  cases hs : s.halted with
  | true => rw [stepResult_halted hs] at h; cases h
  | false =>
    rw [stepResult] at h
    split at h <;> cases h
    exact ⟨rfl, rfl⟩

/-- A Load that is not refused changes memory alone (R242). -/
theorem load_next {bytes : List Byte} {start : Byte} {s t : State} (h : load bytes start s = .next t) :
    t = { s with mem := Memory.writeBytes s.mem start bytes } := by
  rw [load] at h
  split at h <;> cases h
  rfl

/-! ## The components after an instruction -/

/-- The bytes an instruction appends to out (R34). -/
def printed (i : Instr) (s : State) : List Byte :=
  match i with
  | .print rs => [s.getReg (named rs)]
  | _ => []

theorem outAfter_eq (i : Instr) (s : State) : outAfter i s = s.out ++ printed i s := by
  cases i <;> simp [outAfter, printed]

theorem eq_print_of_printed_ne_nil {i : Instr} {s : State} (h : printed i s ≠ []) : ∃ rs, i = .print rs := by
  cases i <;> simp_all [printed]

theorem eq_hlt_of_haltedAfter_ne {i : Instr} {h : Bool} (hne : haltedAfter i h ≠ h) : i = .hlt := by
  cases i <;> simp_all [haltedAfter]

theorem regsAfter_of_none {i : Instr} (h : writesReg i = none) (s : State) : regsAfter i s = s.regs := by
  rw [regsAfter, h]

theorem regsAfter_of_some {i : Instr} {d : Reg} (h : writesReg i = some d) (s : State) :
    regsAfter i s = s.regs.set d.toNat (resultOf i s) d.isLt := by
  rw [regsAfter, h]

/-- A register after an instruction: the result in the destination, else as before (R22). -/
theorem nextState_getReg (m : Config.Encoding) (i : Instr) (s : State) (r : Reg) :
    (nextState m i s).getReg r = if writesReg i = some r then resultOf i s else s.getReg r := by
  change (regsAfter i s).get r.toFin = _
  cases hw : writesReg i with
  | none => rw [regsAfter_of_none hw]; rfl
  | some d =>
    rw [regsAfter_of_some hw]
    exact (s.setReg_getReg d (resultOf i s) r).trans (by simp [eq_comm])

theorem pcAfter_of_overridesPc {i : Instr} {s : State} (h : overridesPc i s = true) (m : Config.Encoding) :
    pcAfter m i s = targetOf i s := if_pos h

/-- An instruction that does not override pc moves it on by its length (R24). -/
theorem advances_nextState {i : Instr} {s : State} (h : overridesPc i s = false) (m : Config.Encoding) :
    Advances s (nextState m i s) (encodeWith m i).length := by
  rw [length_encodeWith]
  simp [Advances, nextState, pcAfter, h]

/-- A byte stored keeps the canonical form of memory. -/
theorem wf_memAfter {s : State} (i : Instr) (h : Memory.wf s.mem) : Memory.wf (memAfter i s) := by
  rw [memAfter]
  split
  · exact Memory.wf_write _ _ h
  · exact h

/-! ## What an instruction reads -/

/-- Two states that agree on all an instruction reads: the registers of R22's table, pc, sp, memory, Z for JZ and JNZ (R30),
the input channel for IN (R35). -/
structure AgreeOn (i : Instr) (s s' : State) : Prop where
  reg : ∀ r ∈ readsRegs i, s'.getReg r = s.getReg r
  pc : s'.pc = s.pc
  sp : s'.sp = s.sp
  mem : s'.mem = s.mem
  z : (∃ a, i = .jz a ∨ i = .jnz a) → s'.flags.z = s.flags.z
  inRead : (∃ rd, i = .inp rd) → s'.inRead = s.inRead

namespace AgreeOn

variable {i : Instr} {s s' : State}

theorem memRead_eq (h : AgreeOn i s s') (a : Byte) : s'.memRead a = s.memRead a := congrArg (Memory.read · a) h.mem

theorem executeError_eq (h : AgreeOn i s s') : executeError i s' = executeError i s := by
  have hr := h.reg
  have hi := h.inRead
  cases i <;> simp_all [executeError, readsRegs, h.sp]

theorem errorOf_eq (h : AgreeOn i s s') : errorOf i s' = errorOf i s := by
  rw [errorOf, errorOf, h.executeError_eq]

theorem resultOf_eq (h : AgreeOn i s s') : resultOf i s' = resultOf i s := by
  have hr := h.reg
  have hi := h.inRead
  cases i <;> simp_all [resultOf, readsRegs, h.memRead_eq, h.sp]

theorem regsAfter_eq (h : AgreeOn i s s') (hr : s'.regs = s.regs) : regsAfter i s' = regsAfter i s := by
  rw [regsAfter, regsAfter, h.resultOf_eq, hr]

theorem carryAfter_eq (h : AgreeOn i s s') : carryAfter i s' = carryAfter i s := by
  have hr := h.reg
  cases i <;> simp_all [carryAfter, readsRegs]

theorem flagsAfter_eq (h : AgreeOn i s s') (hf : s'.flags = s.flags) : flagsAfter i s' = flagsAfter i s := by
  rw [flagsAfter, flagsAfter, h.resultOf_eq, h.carryAfter_eq, hf]

theorem storeOf_eq (h : AgreeOn i s s') : storeOf i s' = storeOf i s := by
  have hr := h.reg
  cases i <;> simp_all [storeOf, readsRegs, h.sp, h.pc]

theorem outAfter_eq_append (h : AgreeOn i s s') : outAfter i s' = s'.out ++ printed i s := by
  have hr := h.reg
  cases i <;> simp_all [outAfter, printed, readsRegs]

theorem memAfter_eq (h : AgreeOn i s s') : memAfter i s' = memAfter i s := by
  rw [memAfter, memAfter, h.storeOf_eq, h.mem]

theorem overridesPc_eq (h : AgreeOn i s s') : overridesPc i s' = overridesPc i s := by
  have hz := h.z
  cases i <;> simp_all [overridesPc]

theorem targetOf_eq (h : AgreeOn i s s') : targetOf i s' = targetOf i s := by
  have hr := h.reg
  cases i <;> simp_all [targetOf, readsRegs, h.memRead_eq, h.sp]

theorem pcAfter_eq (h : AgreeOn i s s') (m : Config.Encoding) : pcAfter m i s' = pcAfter m i s := by
  rw [pcAfter, pcAfter, h.overridesPc_eq, h.targetOf_eq, h.pc]

theorem spAfter_eq (h : AgreeOn i s s') : spAfter i s' = spAfter i s := by
  rw [spAfter, spAfter, h.sp]

/-- Where two states agree on what an instruction reads, it writes the same in both. -/
theorem nextState_eq (h : AgreeOn i s s') (m : Config.Encoding) : nextState m i s' = { nextState m i s with
    regs := regsAfter i s', flags := flagsAfter i s', halted := haltedAfter i s'.halted, out := s'.out ++ printed i s,
    input := inputAfter i s'.input, inCount := inCountAfter i s'.inCount } := by
  simp only [nextState, h.pcAfter_eq, h.spAfter_eq, h.memAfter_eq, h.outAfter_eq_append]

/-- In a state that agrees with s on all an instruction reads, it answers the same error, or f of s's next state. -/
theorem exec_eq_onNext (h : AgreeOn i s s') {f : State → State}
    (hf : nextState defaultEncoding i s' = f (nextState defaultEncoding i s)) : exec i s' = onNext f (exec i s) := by
  rw [exec_eq, exec_eq, h.errorOf_eq, nextOr, nextOr, hf]
  cases errorOf i s <;> rfl

end AgreeOn

/-! ## sp and the invariant -/

theorem spAfter_of_pushes {i : Instr} (h : pushes i = true) (s : State) : spAfter i s = s.sp - 1 := if_pos h

theorem spAfter_of_pops {i : Instr} (h : pops i = true) (s : State) : spAfter i s = s.sp + 1 := by
  have hp : pushes i = false := by cases i <;> simp_all [pushes, pops]
  simp [spAfter, hp, h]

theorem spAfter_of_neither {i : Instr} (hp : pushes i = false) (hq : pops i = false) (s : State) :
    spAfter i s = s.sp := by
  simp [spAfter, hp, hq]

theorem executeError_of_errorOf {i : Instr} {s : State} (h : errorOf i s = none) : executeError i s = none := by
  rw [errorOf] at h
  split at h
  · cases h
  · exact h

/-- A push that completes found room. -/
theorem sp_ne_of_pushes {i : Instr} {s : State} (h : pushes i = true) (he : errorOf i s = none) : s.sp ≠ 0xEA := by
  intro hs
  simpa [executeError_of_pushes h, hs] using executeError_of_errorOf he

/-- A pop that completes found a byte. -/
theorem sp_ne_of_pops {i : Instr} {s : State} (h : pops i = true) (he : errorOf i s = none) : s.sp ≠ 0xFF := by
  intro hs
  simpa [executeError_of_pops h, hs] using executeError_of_errorOf he

/-- A push from an sp in its bounds lowers it by 1 from above 0xEA. -/
theorem toNat_spAfter_of_pushes {i : Instr} {s : State} (h : pushes i = true) (he : errorOf i s = none)
    (hs : 0xEA ≤ s.sp.toNat) : 0xEA < s.sp.toNat ∧ (spAfter i s).toNat + 1 = s.sp.toNat := by
  have hne := sp_ne_of_pushes h he
  rw [spAfter_of_pushes h]
  bv_omega

/-- A pop raises sp by 1 from below 0xFF. -/
theorem toNat_spAfter_of_pops {i : Instr} {s : State} (h : pops i = true) (he : errorOf i s = none) :
    s.sp.toNat < 0xFF ∧ (spAfter i s).toNat = s.sp.toNat + 1 := by
  have hne := sp_ne_of_pops h he
  rw [spAfter_of_pops h]
  bv_omega

theorem le_spAfter {i : Instr} {s : State} (he : errorOf i s = none) (hs : 0xEA ≤ s.sp.toNat) :
    0xEA ≤ (spAfter i s).toNat := by
  cases hp : pushes i with
  | true => have := toNat_spAfter_of_pushes hp he hs; omega
  | false =>
    cases hq : pops i with
    | true => have := toNat_spAfter_of_pops hq he; omega
    | false => rwa [spAfter_of_neither hp hq]

/-- An instruction that completes keeps the invariant, retired by any length. -/
theorem inv_nextState (m : Config.Encoding) {i : Instr} {s : State} (he : errorOf i s = none) (h : Inv s) :
    Inv (nextState m i s) := by
  obtain ⟨hmem, hlow, -, hy⟩ := h
  exact ⟨wf_memAfter i hmem, le_spAfter he hlow, Nat.le_of_lt_succ (spAfter i s).isLt, hy⟩

theorem inv_stepWith {m : Config.Encoding} {s t : State} (hs : Inv s) (h : stepWith m s = .next t) : Inv t := by
  obtain ⟨-, rfl⟩ | ⟨i, -, -, he, rfl⟩ := stepWith_next h
  · exact hs
  · exact inv_nextState m he hs

theorem inv_load {bytes : List Byte} {start : Byte} {s t : State} (hs : Inv s) (h : load bytes start s = .next t) :
    Inv t := by
  obtain ⟨hmem, hrest⟩ := hs
  rw [load_next h]
  exact ⟨Memory.wf_writeBytes start bytes hmem, hrest⟩

theorem inv_resetAt (entry : Byte) : Inv (State.resetAt entry) :=
  ⟨State.resetAt_mem_wf entry, by simp [State.resetAt, Config.stackMax], Nat.le_of_lt_succ (BitVec.isLt _), rfl⟩

/-- The invariant holds at reset and every transaction keeps it. -/
theorem inv_of_reachable {m : Config.Encoding} {s : State} (h : Reachable m s) : Inv s := by
  induction h with
  | reset entry => exact inv_resetAt entry
  | load bytes start _ hl ih => exact inv_load ih hl
  | step _ hs ih => exact inv_stepWith ih hs
  | answers l _ ih => exact ih

/-- Settles O44: the tables keep the canonical form, the bounds of sp and Y. -/
theorem everyStepKeepsTheInvariant : Obligations.EveryStepKeepsTheInvariant :=
  ⟨fun _ _ _ => inv_stepWith, fun _ _ _ _ => inv_load, fun _ _ h => h⟩

/-- Settles O39: sp follows its table, and its bounds are part of the invariant. -/
theorem stackPointerStaysInBounds : Obligations.StackPointerStaysInBounds := by
  refine ⟨fun i s t h => ?_, fun m s h => ?_⟩
  · obtain ⟨he, rfl⟩ := exec_next h
    exact ⟨fun hp hq => spAfter_of_neither hp hq s, fun hp hs => toNat_spAfter_of_pushes hp he hs,
      fun hq => toNat_spAfter_of_pops hq he⟩
  · obtain ⟨-, hlow, hhigh, -⟩ := inv_of_reachable h
    exact ⟨hlow, hhigh⟩

/-! ## Observe -/

theorem getLsbD_flagBit (b : Bool) (k j : Fin 8) : (flagBit b k).getLsbD j = (decide (j = k) && b) := by
  revert b k j; decide

/-- Each bit of the flags byte is the flag whose position it is. -/
theorem getLsbD_flagsByte (p : Config.FlagBits) (f : Flags) (j : Fin 8) :
    (flagsByte p f).getLsbD j =
      (decide (j = p.z) && f.z || decide (j = p.c) && f.c || decide (j = p.n) && f.n || decide (j = p.y) && f.y) := by
  simp only [flagsByte, BitVec.getLsbD_or, getLsbD_flagBit]

/-- The four flags stand at their bits. -/
theorem getLsbD_flagsByte_at (p : Config.FlagBits) (f : Flags) :
    (flagsByte p f).getLsbD p.z = f.z ∧ (flagsByte p f).getLsbD p.c = f.c ∧
    (flagsByte p f).getLsbD p.n = f.n ∧ (flagsByte p f).getLsbD p.y = f.y := by
  obtain ⟨z, c, n, y, hd⟩ := p
  simp only [List.nodup_cons, List.mem_cons, List.not_mem_nil, or_false, not_or] at hd
  obtain ⟨⟨hzc, hzn, hzy⟩, ⟨hcn, hcy⟩, hny, -⟩ := hd
  simp only [getLsbD_flagsByte]
  simp [hzc, hzn, hzy, hcn, hcy, hny, Ne.symm hzc, Ne.symm hzn, Ne.symm hzy, Ne.symm hcn,
    Ne.symm hcy, Ne.symm hny]

/-- Every other bit is 0. -/
theorem getLsbD_flagsByte_of_notMem {p : Config.FlagBits} {j : Fin 8} (hj : j ∉ [p.z, p.c, p.n, p.y]) (f : Flags) :
    (flagsByte p f).getLsbD j = false := by
  simp only [List.mem_cons, List.not_mem_nil, or_false, not_or] at hj
  rw [getLsbD_flagsByte]
  simp [hj]

theorem flagsByte_injective (p : Config.FlagBits) {f g : Flags} (h : flagsByte p f = flagsByte p g) : f = g := by
  obtain ⟨fz, fc, fn, fy⟩ := getLsbD_flagsByte_at p f
  obtain ⟨gz, gc, gn, gy⟩ := getLsbD_flagsByte_at p g
  rw [h] at fz fc fn fy
  cases f; cases g
  simp_all

theorem length_observeWith_memory (p : Config.FlagBits) (s : State) : (observeWith p s).memory.length = 256 := by
  simp [observeWith, Config.memSize]

/-- The k-th byte of the snapshot is the byte at address k. -/
theorem observeWith_memory_getElem? (p : Config.FlagBits) (s : State) (a : Byte) :
    (observeWith p s).memory[a.toNat]? = some (s.memRead a) := by
  have ha : a.toNat < Config.memSize := a.isLt
  simp [observeWith, List.getElem?_range ha]

/-- At the default positions bits 4 and above are 0. -/
theorem getLsbD_observe_flags {k : Nat} (hk : 4 ≤ k) (s : State) : (observe s).flags.getLsbD k = false := by
  by_cases h8 : k < 8
  · refine getLsbD_flagsByte_of_notMem (p := defaultFlagBits) (j := ⟨k, h8⟩) ?_ s.flags
    simp [defaultFlagBits, Fin.ext_iff]
    omega
  · exact BitVec.getLsbD_of_ge _ _ (Nat.not_lt.mp h8)

/-- Settles O55, from the one statement of what every bit of the flags byte is. -/
theorem observeShowsTheState : Obligations.ObserveShowsTheState := by
  intro p s
  obtain ⟨hz, hc, hn, hy⟩ := getLsbD_flagsByte_at p s.flags
  exact ⟨rfl, rfl, rfl, rfl, rfl, length_observeWith_memory p s, observeWith_memory_getElem? p s, hz, hc, hn, hy,
    fun k hk => getLsbD_flagsByte_of_notMem hk s.flags⟩

/-! ## Reachable states -/

/-- A Step appends to out what it prints, and a halted one nothing. -/
theorem stepWith_out {m : Config.Encoding} {s t : State} (h : stepWith m s = .next t) :
    ∃ l, t.out = s.out ++ l ∧ (l ≠ [] → ∃ rs, fetchDecode m s = .ok (.print rs)) := by
  obtain ⟨-, rfl⟩ | ⟨i, -, hd, -, rfl⟩ := stepWith_next h
  · exact ⟨[], by simp, fun hl => absurd rfl hl⟩
  · refine ⟨printed i s, outAfter_eq i s, fun hl => ?_⟩
    obtain ⟨rs, rfl⟩ := eq_print_of_printed_ne_nil hl
    exact ⟨rs, hd⟩

/-- Settles O47: the invariant by induction on reachability, the rest from what one transaction can do. -/
theorem reachableStatesAreLegal : Obligations.ReachableStatesAreLegal := by
  intro m s h
  refine ⟨inv_of_reachable h, length_observeWith_memory _ s, fun k hk => getLsbD_observe_flags hk s,
    stepWith_halted m, fun bytes start t hl => ?_, fun t ht => stepWith_out ht⟩
  rw [load_next hl]

/-! ## Halted -/

/-- A run is its first Step and then the rest. -/
theorem run_succ {M : Host.Core} {s t : M.State} (h : M.step s = .next t) (k : Nat) : M.run (k + 1) s = M.run k t := by
  rw [Host.Core.run, h]

/-- Any number of Steps of a halted core changes nothing (R32). -/
theorem core_run_halted {s : State} (hs : s.halted = true) (k : Nat) : Host.Core.run Sys2Proof.core k s = .next s := by
  induction k with
  | zero => rfl
  | succ k ih =>
    have hstep : Sys2Proof.core.step s = .next s := stepWith_halted _ hs
    exact (run_succ (M := Sys2Proof.core) hstep k).trans ih

/-- Settles O10: `haltedAfter` is the table of R32, and an error or a Load does not touch halted. -/
theorem haltedIsTerminal : Obligations.HaltedIsTerminal := by
  refine ⟨fun k s hs => core_run_halted hs k, fun s => stepResult_halted, fun i s t h hne => ?_,
    fun s => ⟨_, exec_eq_next rfl, rfl⟩, fun s t e h => ?_, fun bytes start s t h => ?_, fun _ => rfl⟩
  · obtain ⟨-, rfl⟩ := exec_next h
    obtain rfl := eq_hlt_of_haltedAfter_ne hne
    exact ⟨rfl, rfl⟩
  · obtain ⟨rfl, hs⟩ := stepResult_err h
    exact hs
  · rw [load_next h]

/-! ## Registers -/

/-- A register that the instruction does not read is no part of what it reads. -/
theorem agreeOn_setReg {i : Instr} {r : Reg} (hr : r ∉ readsRegs i) (s : State) (v : Byte) :
    AgreeOn i s (s.setReg r v) where
  reg q hq := by rw [State.setReg_getReg, if_neg (ne_of_mem_of_not_mem hq hr)]
  pc := rfl
  sp := rfl
  mem := rfl
  z _ := rfl
  inRead _ := rfl

/-- A register the instruction does not read keeps the value it is given, unless the instruction overwrites it. -/
theorem regsAfter_setReg {i : Instr} {r : Reg} (hr : r ∉ readsRegs i) (s : State) (v : Byte) :
    regsAfter i (s.setReg r v) =
      if writesReg i = some r then regsAfter i s else (regsAfter i s).set r.toNat v r.isLt := by
  have hres := (agreeOn_setReg hr s v).resultOf_eq
  cases hw : writesReg i with
  | none => simp [regsAfter_of_none hw]
  | some d =>
    rw [regsAfter_of_some hw, regsAfter_of_some hw, hres]
    by_cases hd : d = r
    · simp [hd]
    · rw [if_neg (by simpa using hd)]
      exact Vector.set_comm _ _ (by simpa [BitVec.toNat_inj, eq_comm] using hd)

theorem nextState_setReg {i : Instr} {r : Reg} (hr : r ∉ readsRegs i) (m : Config.Encoding) (s : State) (v : Byte) :
    nextState m i (s.setReg r v) =
      if writesReg i = some r then nextState m i s else (nextState m i s).setReg r v := by
  have ha := agreeOn_setReg hr s v
  rw [ha.nextState_eq, regsAfter_setReg hr, ha.flagsAfter_eq rfl, State.setReg_out, ← outAfter_eq]
  split <;> rfl

/-- Settles O36: a register off R22's list of registers read is no part of what the tables look at. -/
theorem registersReadAndWritten : Obligations.RegistersReadAndWritten := by
  refine ⟨fun i s t h r hr => ?_, fun i s r v hr => ?_⟩
  · obtain ⟨-, rfl⟩ := exec_next h
    rw [nextState_getReg, if_neg hr]
  · exact (agreeOn_setReg hr s v).exec_eq_onNext (nextState_setReg hr _ s v)

/-! ## out -/

/-- out is no part of what an instruction reads. -/
theorem agreeOn_out (i : Instr) (s : State) (o : List Byte) : AgreeOn i s { s with out := o } where
  reg _ _ := rfl
  pc := rfl
  sp := rfl
  mem := rfl
  z _ := rfl
  inRead _ := rfl

theorem nextState_out (m : Config.Encoding) (i : Instr) (s : State) (o : List Byte) :
    nextState m i { s with out := o } =
      { nextState m i s with out := o ++ (nextState m i s).out.drop s.out.length } := by
  have ha := agreeOn_out i s o
  have hout : (nextState m i s).out.drop s.out.length = printed i s := by
    rw [show (nextState m i s).out = _ from outAfter_eq i s, List.drop_left]
  rw [ha.nextState_eq, ha.regsAfter_eq rfl, ha.flagsAfter_eq rfl, hout]
  rfl

theorem errorOf_print {rs : Byte} (h : rs.toNat ≤ 15) (s : State) : errorOf (.print rs) s = none := by
  have hw : (Instr.print rs).wellFormed = true := (validRegByte_iff rs).mpr h
  rw [errorOf, hw]; rfl

/-- Settles O41: no table looks at out, and only PRINT's adds to it. -/
theorem outputIsASideChannel : Obligations.OutputIsASideChannel := by
  refine ⟨fun i s t h => ?_, fun i s o => ?_, fun rs s h => ?_, fun _ => rfl⟩
  · obtain ⟨-, rfl⟩ := exec_next h
    exact ⟨printed i s, outAfter_eq i s, eq_print_of_printed_ne_nil⟩
  · exact (agreeOn_out i s o).exec_eq_onNext (f := fun t => { t with out := o ++ t.out.drop s.out.length })
      (nextState_out _ i s o)
  · exact ⟨_, exec_eq_next (errorOf_print h s)⟩

/-! ## Flags -/

theorem exists_writesReg_of_writesZN {i : Instr} (h : writesZN i = true) : ∃ d, writesReg i = some d := by
  cases i <;> simp_all [writesZN, writesReg]

theorem isSome_carryAfter (i : Instr) (s : State) : (carryAfter i s).isSome = writesC i := by
  cases i <;> rfl

/-- Z and N are those of the result in the destination (R29). -/
theorem flagsAfter_of_writesZN {i : Instr} (h : writesZN i = true) (s : State) :
    (flagsAfter i s).z = decide (resultOf i s = 0) ∧ (flagsAfter i s).n = (resultOf i s).getLsbD 7 :=
  ⟨if_pos h, if_pos h⟩

/-- CMP's verdict is 0 for equal operands alone, and never above 2 (R164). -/
theorem compareVerdict_eq_zero_iff (a b : Byte) : compareVerdict a b = 0 ↔ a = b := by
  unfold compareVerdict
  split
  · simp_all
  · split <;> simp_all

theorem compareVerdict_lt (a b : Byte) : (compareVerdict a b).toNat < 128 := by
  unfold compareVerdict
  split
  · decide
  · split <;> decide

/-- Settles O37: the flags after an instruction are those of R29's table. -/
theorem flagsFollowTheTable : Obligations.FlagsFollowTheTable := by
  refine ⟨fun i s t h => ?_, fun rd rs s t h => ?_, fun s t e h => ?_, fun s hs => ?_⟩
  · obtain ⟨-, rfl⟩ := exec_next h
    refine ⟨?_, by rw [isSome_carryAfter], rfl, rfl⟩
    split
    · next hw =>
      obtain ⟨d, hd⟩ := exists_writesReg_of_writesZN hw
      obtain ⟨hz, hn⟩ := flagsAfter_of_writesZN hw s
      refine ⟨d, hd, ?_, ?_⟩
      · rw [regVal, nextState_getReg, if_pos hd, ← zero_iff]
        exact Bool.eq_iff_iff.mp hz
      · rw [regVal, nextState_getReg, if_pos hd, ← bit7_iff]
        exact Bool.eq_iff_iff.mp hn
    · next hw => exact ⟨if_neg hw, if_neg hw⟩
  · obtain ⟨-, rfl⟩ := exec_next h
    refine ⟨decide_eq_true_iff.trans (compareVerdict_eq_zero_iff _ _), ?_⟩
    exact Bool.eq_false_iff.mpr (mt (bit7_iff _).mp (Nat.not_le.mpr (compareVerdict_lt _ _)))
  · rw [(stepResult_err h).1]
  · rw [stepResult_halted hs]

/-- Of the flags only Z is part of what an instruction reads, and of JZ and JNZ alone (R30). -/
theorem agreeOn_setFlags {i : Instr} {s : State} {f : Flags} (h : (∃ a, i = .jz a ∨ i = .jnz a) → f.z = s.flags.z) :
    AgreeOn i s (s.setFlags f) where
  reg _ _ := rfl
  pc := rfl
  sp := rfl
  mem := rfl
  z := h
  inRead _ := rfl

/-- The flags after an instruction: of the old ones it leaves those its table does not list. -/
theorem flagsAfter_setFlags {i : Instr} {s : State} {f : Flags} (h : AgreeOn i s (s.setFlags f)) :
    flagsAfter i (s.setFlags f) =
      { z := if writesZN i = true then (flagsAfter i s).z else f.z,
        c := if writesC i = true then (flagsAfter i s).c else f.c,
        n := if writesZN i = true then (flagsAfter i s).n else f.n, y := f.y } := by
  rw [flagsAfter, flagsAfter, h.resultOf_eq, h.carryAfter_eq, ← isSome_carryAfter i s]
  cases writesZN i <;> cases carryAfter i s <;> rfl

/-- Settles O38: but for the flags left alone, only `overridesPc` of JZ and JNZ looks at a flag, and at Z. -/
theorem onlyZIsEverRead : Obligations.OnlyZIsEverRead := by
  refine ⟨fun i s f h => (?_ : exec i (s.setFlags f) = _), fun a s => ⟨_, exec_eq_next rfl, ?_⟩,
    fun a s => ⟨_, exec_eq_next rfl, ?_⟩, fun p f g => flagsByte_injective p⟩
  · have ha := agreeOn_setFlags h
    refine ha.exec_eq_onNext ?_
    rw [ha.nextState_eq, ha.regsAfter_eq rfl, flagsAfter_setFlags ha, State.setFlags_out, ← outAfter_eq]
    rfl
  · split
    · next hz => exact pcAfter_of_overridesPc (i := .jz a) hz _
    · next hz => exact advances_nextState (i := .jz a) (Bool.eq_false_iff.mpr hz) defaultEncoding
  · split
    · next hz => exact pcAfter_of_overridesPc (i := .jnz a) (congrArg not hz) _
    · next hz =>
      exact advances_nextState (i := .jnz a) (congrArg not (Bool.eq_true_of_not_eq_false hz)) defaultEncoding

/-! ## pc -/

/-- An instruction that overrides pc and completes goes to its target. -/
theorem pc_of_exec_next {i : Instr} {s t : State} (h : exec i s = .next t) (ho : overridesPc i s = true) :
    t.pc = targetOf i s := by
  obtain ⟨-, rfl⟩ := exec_next h
  exact pcAfter_of_overridesPc ho _

/-- A Step of an instruction that does not override pc moves pc on by the length `SHAPE` gives it. -/
theorem advances_of_stepWith {m : Config.Encoding} {s t : State} {i : Instr} (hs : s.halted = false)
    (hd : fetchDecode m s = .ok i) (ho : overridesPc i s = false) (h : stepWith m s = .next t) :
    Advances s t (encodeWith m i).length := by
  obtain ⟨-, rfl⟩ := nextOr_next (stepWith_eq hs hd ▸ h)
  exact advances_nextState ho m

/-- An unassigned opcode byte decodes as NOP, whatever follows it, where NOP has format N (R82). -/
theorem fetchDecode_unassigned {m : Config.Encoding} {s : State} (hn : m.shape .nop = .n)
    (hu : ∀ op, m.byte op ≠ s.memRead s.pc) : fetchDecode m s = .ok .nop := by
  simp [fetchDecode, decodeWith, decodeOperation_unassigned m _ hu, hn, hasRegByte, instrFrom]

/-- Settles O42: pc after an instruction is its target or the old pc moved on by its length. -/
theorem retireAdvancesByTheLength : Obligations.RetireAdvancesByTheLength := by
  refine ⟨fun i s t h ho => ?_, fun m s t i hs hd ho h => advances_of_stepWith hs hd ho h,
    fun m s t hn hs hu h => ?_, fun a s t h => ?_, fun a s t h hz => pc_of_exec_next h hz,
    fun a s t h hz => pc_of_exec_next h (by simp [overridesPc, hz]), fun b s t h => ?_,
    fun s t h => pc_of_exec_next h rfl, fun s t e h => ?_, fun s hs => ?_⟩
  · obtain ⟨-, rfl⟩ := exec_next h
    exact advances_nextState ho _
  · have hlen : (encodeWith m .nop).length = 1 := by
      rw [length_encodeWith, lengthWith, operationOf, hn]; rfl
    exact hlen ▸ advances_of_stepWith hs (fetchDecode_unassigned hn hu) rfl h
  · obtain h | h := h <;> exact pc_of_exec_next h rfl
  · obtain h | h := h <;> exact pc_of_exec_next h rfl
  · rw [(stepResult_err h).1]
  · rw [stepResult_halted hs]

end Sys2Proof.Proofs

/-! # Memory: what one instruction stores, and what a run of Steps leaves

Memory after an instruction is `memAfter`. Read byte by byte it is the store of R57's table over the old memory; the log
of a run lists these stores, so it is what every later read finds. -/

namespace Sys2Proof.Proofs

open Sys2Proof.Machine Sys2Proof.Safety

/-! ## One instruction -/

/-- The byte stored is read at its address, and the old bytes elsewhere. -/
theorem memRead_nextState_of_some {i : Instr} {s : State} {a v : Byte} (h : storeOf i s = some (a, v))
    (m : Config.Encoding) (b : Byte) : (nextState m i s).memRead b = if b = a then v else s.memRead b := by
  change Memory.read (memAfter i s) b = _
  rw [memAfter, h]
  exact Memory.read_write s.mem a v b

theorem memRead_nextState_of_none {i : Instr} {s : State} (h : storeOf i s = none) (m : Config.Encoding) (b : Byte) :
    (nextState m i s).memRead b = s.memRead b := by
  change Memory.read (memAfter i s) b = _
  rw [memAfter, h]
  rfl

/-- An instruction's store as a log of at most one entry over the old memory. -/
theorem memRead_nextState (m : Config.Encoding) (i : Instr) (s : State) (b : Byte) :
    (nextState m i s).memRead b = ((storeOf i s).toList.lookup b).getD (s.memRead b) := by
  cases h : storeOf i s with
  | none => exact memRead_nextState_of_none h m b
  | some p =>
    obtain ⟨a, v⟩ := p
    rw [memRead_nextState_of_some h]
    by_cases hb : b = a
    · simp [hb]
    · simp [List.lookup_cons, beq_eq_false_iff_ne.mpr hb, hb]

/-- Settles O40: memory after an instruction is that of R57's table. -/
theorem memoryChangesOnlyWhereStored : Obligations.MemoryChangesOnlyWhereStored := by
  intro i s t h
  obtain ⟨-, rfl⟩ := exec_next h
  split
  · next a v hst =>
    refine ⟨?_, fun b hb => ?_⟩
    · rw [memRead_nextState_of_some hst, if_pos rfl]
    · rw [memRead_nextState_of_some hst, if_neg hb]
  · next hst => exact memRead_nextState_of_none hst _

/-- Settles O50: each of the three bytes fetched is a read of the memory after the store. -/
theorem nextFetchSeesTheStore : Obligations.NextFetchSeesTheStore := by
  intro m i s t a v h hst
  obtain ⟨-, rfl⟩ := exec_next h
  simp only [fetchDecode, memRead_nextState_of_some hst]

/-! ## A run of Steps -/

theorem stepStore_of_halted {s : State} (h : s.halted = true) (m : Config.Encoding) : stepStore m s = none := if_pos h

theorem stepStore_of_fetchDecode {m : Config.Encoding} {s : State} {i : Instr} (hs : s.halted = false)
    (hd : fetchDecode m s = .ok i) : stepStore m s = storeOf i s := by
  rw [stepStore, hs, hd]; rfl

/-- A Step leaves the byte it logs over the old memory. -/
theorem memRead_of_stepWith {m : Config.Encoding} {s t : State} (h : stepWith m s = .next t) (b : Byte) :
    t.memRead b = ((stepStore m s).toList.lookup b).getD (s.memRead b) := by
  obtain ⟨hs, rfl⟩ | ⟨i, hs, hd, -, rfl⟩ := stepWith_next h
  · rw [stepStore_of_halted hs]; rfl
  · rw [stepStore_of_fetchDecode hs hd, memRead_nextState]

/-- A run of k + 1 Steps is a Step without an error, its store logged, and a run of k. -/
theorem runLog_succ {m : Config.Encoding} {k : Nat} {s : State} {log : List (Byte × Byte)}
    {r : State × List (Byte × Byte)} (h : runLog m (k + 1) s log = some r) :
    ∃ u, stepWith m s = .next u ∧ runLog m k u ((stepStore m s).toList ++ log) = some r := by
  rw [runLog] at h
  split at h
  · next u hu => exact ⟨u, hu, h⟩
  · cases h
  · cases h

/-- Every address of s holds its latest store of the log, or the byte of `base`. -/
def HoldsLatest (base : Byte → Byte) (log : List (Byte × Byte)) (s : State) : Prop :=
  ∀ a, s.memRead a = (log.lookup a).getD (base a)

theorem holdsLatest_nil (s : State) : HoldsLatest s.memRead [] s := fun _ => rfl

/-- A Step and the logging of its store keep log and memory in agreement. -/
theorem holdsLatest_of_stepWith {base : Byte → Byte} {log : List (Byte × Byte)} {m : Config.Encoding} {s t : State}
    (hl : HoldsLatest base log s) (h : stepWith m s = .next t) :
    HoldsLatest base ((stepStore m s).toList ++ log) t := by
  intro a
  rw [memRead_of_stepWith h, hl a, List.lookup_append, Option.getD_or]

/-- So does a run of any number of Steps. -/
theorem holdsLatest_of_runLog {base : Byte → Byte} {m : Config.Encoding} {k : Nat} {s t : State}
    {log log' : List (Byte × Byte)} (hl : HoldsLatest base log s) (h : runLog m k s log = some (t, log')) :
    HoldsLatest base log' t := by
  induction k generalizing s log with
  | zero => cases h; exact hl
  | succ k ih =>
    obtain ⟨u, hu, hrest⟩ := runLog_succ h
    exact ih (holdsLatest_of_stepWith hl hu) hrest

/-- Settles O49: the empty log agrees with the memory of the start, and every Step keeps the agreement. -/
theorem everyReadSeesTheLatestWrite : Obligations.EveryReadSeesTheLatestWrite :=
  fun _ _ s _ _ h => holdsLatest_of_runLog (holdsLatest_nil s) h

end Sys2Proof.Proofs

/-! # Encoding: decode and encode agree

An instruction written by the encoder in a shape that carries its operands is read back by the decoder, whatever bytes
follow (`decodeWith_encodeWith_append`), so a stream of instructions is read back one after the other. At the default
shapes the encoder gives back the bytes the decoder read. -/

namespace Sys2Proof.Proofs

open Sys2Proof.Machine Sys2Proof.Safety

/-! ## The operands the encoder writes -/

/-- The operands of an instruction as its encoding in a shape holds them. -/
def encodedOperands (f : Shape) (i : Instr) : Operands :=
  match f with
  | .n => .none
  | .r => .reg (i.regByte.getD 0)
  | .rr => .pair i.pair.1 i.pair.2
  | .a => .addr i.data
  | .ri => .regImm (i.regByte.getD 0) i.data
  | .ra => .regAddr (i.regByte.getD 0) i.data

/-- The decoder takes from the encoder's operand bytes the operands written there, whatever follows them. -/
theorem operandsOf_operandBytes_append (f : Shape) (i : Instr) (rest : List Byte) :
    operandsOf f ((operandBytes f i ++ rest).getD 0 0) ((operandBytes f i ++ rest).getD 1 0) = encodedOperands f i := by
  cases f with
  | n | r | a | ri | ra => rfl
  | rr => simp [operandsOf, operandBytes, encodedOperands]

/-- A valid register byte is a register number, so its low nibble is the whole byte (R77). -/
theorem setWidth_setWidth_of_validRegByte {b : Byte} (h : validRegByte b = true) : (b.setWidth 4).setWidth 8 = b := by
  have hb := (validRegByte_iff b).mp h
  bv_omega

/-- The operands the encoder writes make the instruction again, in every shape that carries them. -/
theorem instrFrom_encodedOperands {f : Shape} {i : Instr} (hw : i.wellFormed = true)
    (hc : carries f (operationOf i) = true) : instrFrom (operationOf i) (encodedOperands f i) = some i := by
  cases i with
  | hlt | nop | ret => rfl
  | push | pop | inc | dec | not | shl | shr | rol | ror | inp | print | jmpr | callr =>
    cases f with
    | r | ri | ra => rfl
    | rr => exact congrArg (some ∘ _) (setWidth_setWidth_of_validRegByte hw)
    | n | a => cases hc
  | ldr | mov | add | sub | mul | div | mod | and | or | xor | cmp =>
    cases f with
    | rr => rfl
    | n | r | a | ri | ra => cases hc
  | jmp | jz | jnz | call =>
    cases f with
    | a | ra => rfl
    | n | r | rr | ri => cases hc
  | ldi | addi | subi | muli | divi | modi =>
    cases f with
    | ri => rfl
    | n | r | rr | a | ra => cases hc
  | lda | store =>
    cases f with
    | ra => rfl
    | n | r | rr | a | ri => cases hc

theorem validRegByte_getD_regByte {i : Instr} (hw : i.wellFormed = true) : validRegByte (i.regByte.getD 0) = true := by
  rw [Instr.wellFormed] at hw
  cases hb : i.regByte with
  | none => rfl
  | some b => rw [hb] at hw; exact hw

/-- The encoder writes no register byte above 15 for a well-formed instruction (R77). -/
theorem regByte_check_operandBytes_append {i : Instr} (hw : i.wellFormed = true) (f : Shape) (rest : List Byte) :
    (hasRegByte f && !validRegByte ((operandBytes f i ++ rest).getD 0 0)) = false := by
  cases f with
  | n | rr | a => rfl
  | r | ri | ra => exact congrArg not (validRegByte_getD_regByte hw)

/-! ## Decode after encode -/

/-- Where the register byte passes the check and the operands make an instruction, the decode answers it. -/
theorem decodeWith_eq_ok {m : Config.Encoding} {b0 b1 b2 : Byte} {op : Operation} {i : Instr}
    (hop : decodeOperation m b0 = op) (hv : (hasRegByte (m.shape op) && !validRegByte b1) = false)
    (hi : instrFrom op (operandsOf (m.shape op) b1 b2) = some i) : decodeWith m b0 b1 b2 = .ok i := by
  subst hop
  simp [decodeWith, hv, hi]

/-- The decoder reads back a well-formed instruction from its bytes, whatever follows them (R81, R98). -/
theorem decodeWith_encodeWith_append {m : Config.Encoding} {i : Instr} (hw : i.wellFormed = true)
    (hc : carries (m.shape (operationOf i)) (operationOf i) = true) (rest : List Byte) :
    decodeWith m ((encodeWith m i ++ rest).getD 0 0) ((encodeWith m i ++ rest).getD 1 0)
      ((encodeWith m i ++ rest).getD 2 0) = .ok i :=
  decodeWith_eq_ok (decodeOperation_byte m _) (regByte_check_operandBytes_append hw _ rest)
    ((congrArg _ (operandsOf_operandBytes_append _ i rest)).trans (instrFrom_encodedOperands hw hc))

/-- Settles O1: what follows the encoding is any two bytes. -/
theorem decodeOfEncodeIsTheInstruction : Obligations.DecodeOfEncodeIsTheInstruction :=
  fun _ _ p q hw hc => decodeWith_encodeWith_append hw hc [p, q]

/-- A stream that begins with the bytes of an instruction decodes to it and then the rest (R79). -/
theorem decodeProgram_encodeWith_append {m : Config.Encoding} {i : Instr} (hw : i.wellFormed = true)
    (hc : carries (m.shape (operationOf i)) (operationOf i) = true) (fuel : Nat) (rest : List Byte) :
    decodeProgram m (fuel + 1) (encodeWith m i ++ rest) = (decodeProgram m fuel rest).map (i :: ·) := by
  have hd := decodeWith_encodeWith_append hw hc rest
  have hl := length_encodeWith m i
  obtain ⟨b0, bs, hbs⟩ : ∃ b0 bs, encodeWith m i = b0 :: bs := ⟨_, _, rfl⟩
  rw [hbs] at hd hl ⊢
  simp only [List.cons_append, List.getD_cons_zero, List.getD_cons_succ] at hd
  rw [List.cons_append, decodeProgram, hd]
  simp [← hl]

/-- Settles O3, by induction on the list of instructions. -/
theorem programStreamDecodesToItself : Obligations.ProgramStreamDecodesToItself := by
  intro m p hp
  induction p with
  | nil => rfl
  | cons i p ih =>
    obtain ⟨⟨hw, hc⟩, hp⟩ := List.forall_mem_cons.mp hp
    rw [encodeProgram, List.flatMap_cons, List.length_cons, decodeProgram_encodeWith_append hw hc]
    exact congrArg (Option.map (i :: ·)) (ih hp)

/-! ## Encode after decode -/

/-- At the default shape an instruction's operand bytes are those it was made from, behind any opcode (R71 to R76). -/
theorem cons_operandBytes_of_instrFrom {op : Operation} {b1 b2 : Byte} {i : Instr}
    (h : instrFrom op (operandsOf (shapeOf op) b1 b2) = some i) (b0 : Byte) :
    b0 :: operandBytes (shapeOf op) i = [b0, b1, b2].take (shapeLength (shapeOf op)) := by
  cases op with
  | hlt | nop | ret | push | pop | inc | dec | not | shl | shr | rol | ror | inp | print | jmpr | callr
  | jmp | jz | jnz | call | ldi | addi | subi | muli | divi | modi | lda | store =>
    obtain rfl := Option.some.inj h
    rfl
  | ldr | mov | add | sub | mul | div | mod | and | or | xor | cmp =>
    obtain rfl := Option.some.inj h
    exact congrArg ([b0, ·]) (pairByte_pair b1)

theorem encodeWith_nop {m : Config.Encoding} (hn : m.shape .nop = .n) : encodeWith m .nop = [m.byte .nop] := by
  simp [encodeWith, operationOf, hn, operandBytes]

/-- Settles O2: the decode keeps the operation and the operand bytes of an assigned opcode; for an unassigned one it puts
NOP, whose own opcode is assigned. -/
theorem reencodingGivesBackTheBytes : Obligations.ReencodingGivesBackTheBytes := by
  refine ⟨fun m b0 b1 b2 i hm hb h => ?_, fun m b0 b1 b2 hm hu => ?_⟩
  · obtain ⟨op, rfl⟩ := hb
    have hop : operationOf i = op := (operationOf_decodeWith h).trans (decodeOperation_byte m op)
    have hi := (decodeWith_ok h).2
    rw [decodeOperation_byte, hm] at hi
    rw [encodeWith, instrLength, lengthWith, hop, hm]
    exact cons_operandBytes_of_instrFrom hi _
  · have hn : m.shape .nop = .n := by rw [hm]; rfl
    refine ⟨.nop, decodeWith_eq_ok (decodeOperation_unassigned m b0 hu) (by rw [hn]; rfl) rfl, fun h => ?_⟩
    rw [encodeWith_nop hn] at h
    exact hu .nop (List.head_eq_of_cons_eq h)

/-! ## Unassigned opcode bytes -/

theorem defaultOpcode_lt (op : Operation) : (defaultOpcode op).toNat < 0x27 := by cases op <;> decide

/-- The default opcodes count the table of operations (R80). -/
theorem defaultOpcode_operationTable : ∀ k, defaultOpcode (operationTable.get k) = BitVec.ofNat 8 k.val := by decide

/-- The default map assigns the bytes below 0x27 and no other (R82). -/
theorem exists_defaultOpcode_iff (b : Byte) : (∃ op, defaultOpcode op = b) ↔ b.toNat < 0x27 := by
  refine ⟨fun ⟨op, h⟩ => h ▸ defaultOpcode_lt op, fun h => ⟨operationTable.get ⟨b.toNat, h⟩, ?_⟩⟩
  rw [defaultOpcode_operationTable]
  simp

/-- Settles O4: such a byte decodes to NOP, whose next state by the tables differs in pc alone. -/
theorem unassignedByteOnlyAdvancesPc : Obligations.UnassignedByteOnlyAdvancesPc := by
  refine ⟨fun b => ?_, fun m s hn hu => ?_⟩
  · rw [← not_lt, ← exists_defaultOpcode_iff, not_exists]
  · have hd := fetchDecode_unassigned hn hu
    have hlen : (encodeWith m .nop).length = 1 := congrArg List.length (encodeWith_nop hn)
    refine ⟨hd, (length_encodeWith m .nop).symm.trans hlen, encodeWith_nop hn, fun hs => ?_⟩
    exact ⟨nextState m .nop s, stepWith_eq hs hd, hlen ▸ advances_nextState rfl m, rfl⟩

/-! ## Lengths -/

theorem shapeLength_bounds (f : Shape) : 1 ≤ shapeLength f ∧ shapeLength f ≤ 3 := by cases f <;> decide

/-- Settles O5: the instruction decoded is of the operation its opcode byte names. -/
theorem lengthIsKnownFromTheOpcodeByte : Obligations.LengthIsKnownFromTheOpcodeByte := by
  intro m b0 b1 b2 i h
  refine ⟨?_, length_encodeWith m i, shapeLength_bounds _⟩
  rw [lengthWith, operationOf_decodeWith h]

/-! ## Words of the spec -/

/-- Settles O7: the decoder evaluated on each word. -/
theorem specWordsDecode : Obligations.SpecWordsDecode := ⟨rfl, rfl, rfl, rfl, rfl, rfl, rfl, rfl, rfl⟩

/-! ## The Step -/

/-- Another encoding retires the same instruction elsewhere, and changes nothing but pc. -/
theorem nextState_eq_ite (m : Config.Encoding) (i : Instr) (s : State) : nextState m i s =
    if overridesPc i s then nextState defaultEncoding i s
    else { nextState defaultEncoding i s with pc := s.pc + BitVec.ofNat 8 (lengthWith m i) } := by
  cases ho : overridesPc i s <;> simp [nextState, pcAfter, ho]

/-- A decode at the default shapes fails on a register byte only (R83). -/
theorem eq_invalidOperand_of_decodeWith {m : Config.Encoding} {b0 b1 b2 : Byte} {e : DecodeError} (hm : m.shape = shapeOf)
    (h : decodeWith m b0 b1 b2 = .error e) : e = .invalidOperand := by
  rw [decodeWith] at h
  split at h
  · cases h; rfl
  · split at h
    · cases h
    · next hnone =>
      have hsome := isSome_instrFrom (m.shape (decodeOperation m b0)) (decodeOperation m b0) b1 b2
      rw [hnone, hm, carries_shapeOf] at hsome
      cases hsome

/-- A running core whose decode fails answers what the failure stands for (R77, R202). -/
theorem stepWith_of_fetchDecode_error {m : Config.Encoding} {s : State} {e : DecodeError} (hs : s.halted = false)
    (hd : fetchDecode m s = .error e) : stepWith m s = decodeFailure e := by
  rw [stepWith, hs, hd]; rfl

/-- A running core executes what it decodes, and retire changes pc alone. -/
theorem stepWith_eq_onNext {m : Config.Encoding} {s : State} {i : Instr} (hs : s.halted = false)
    (hd : fetchDecode m s = .ok i) : stepWith m s =
      onNext (fun t => if overridesPc i s then t else { t with pc := s.pc + BitVec.ofNat 8 (lengthWith m i) })
        (exec i s) := by
  rw [stepWith_eq hs hd, exec_eq]
  cases errorOf i s with
  | some e => rfl
  | none => exact congrArg Host.Outcome.next (nextState_eq_ite m i s)

/-- Where the operation has its default shape, a running core does what `exec` does. -/
theorem stepWith_eq_exec {m : Config.Encoding} {s : State} {i : Instr} (hs : s.halted = false)
    (hd : fetchDecode m s = .ok i) (hm : m.shape (operationOf i) = shapeOf (operationOf i)) : stepWith m s = exec i s := by
  have hl : lengthWith m i = instrLength i := congrArg shapeLength hm
  have hstep : stepWith m s = retireWith m i s (exec i s) := by rw [stepWith, hs, hd]; rfl
  rw [hstep, retireWith_default hl]

/-- Settles O9: a halted core stays, a running one executes what it decodes or answers the failure of its decode. -/
theorem stepRunsTheDecodedInstruction : Obligations.StepRunsTheDecodedInstruction := by
  refine ⟨fun m s hs => stepWith_halted m hs, fun m s i hs hd => stepWith_eq_onNext hs hd,
    fun m s i hs hd hm => stepWith_eq_exec hs hd hm, fun m s hs hd => stepWith_of_fetchDecode_error hs hd,
    fun s i hs hd => stepWith_eq_exec hs hd rfl, fun s hs hno => ?_, fun _ => rfl,
    fun s t h => by rw [stepResult, h], fun s e h => by rw [stepResult, h]⟩
  cases hd : fetchDecode defaultEncoding s with
  | ok i => exact absurd hd (hno i)
  | error e =>
    obtain rfl := eq_invalidOperand_of_decodeWith rfl hd
    exact stepWith_of_fetchDecode_error hs hd

end Sys2Proof.Proofs

/-! # The assembler: an instruction written with plain numbers

A number written in decimal is read back as that number (`numberOf_toDigits`), so an operand token is resolved to its
byte, and each format emits what the encoder writes (`emitInstr_tokensOf`). -/

namespace Sys2Proof.Proofs

open Sys2Proof.Machine Sys2Proof.Safety

/-! ## Decimal numbers -/

theorem decDigit_of_isDigit {c : Char} (h : c.isDigit = true) : decDigit c = some (c.toNat - '0'.toNat) :=
  if_pos (Char.isDigit_iff_toNat.mp h)

/-- The model reads decimal digits as the library does. -/
theorem digitsValue_decDigit {l : List Char} (h : ∀ c ∈ l, c.isDigit = true) (acc : Nat) :
    digitsValue 10 decDigit acc l = some (Nat.ofDigitChars 10 l acc) := by
  induction l generalizing acc with
  | nil => rfl
  | cons c l ih =>
    obtain ⟨hc, hl⟩ := List.forall_mem_cons.mp h
    rw [digitsValue, decDigit_of_isDigit hc, Nat.ofDigitChars_cons]
    exact ih hl _

theorem isDigit_of_mem_toDigits (n : Nat) : ∀ c ∈ Nat.toDigits 10 n, c.isDigit = true :=
  fun _ hc => Nat.isDigit_of_mem_toDigits (by decide) (by decide) hc

/-- A number written in decimal is that number (R96). -/
theorem numberOf_toDigits (n : Nat) : numberOf 10 decDigit (Nat.toDigits 10 n) = some n := by
  have hv := digitsValue_decDigit (isDigit_of_mem_toDigits n) 0
  rw [Nat.ofDigitChars_toDigits (by decide) (by decide)] at hv
  cases hd : Nat.toDigits 10 n with
  | nil => exact absurd hd Nat.toDigits_ne_nil
  | cons c l => rw [← hv, hd]; rfl

/-- Decimal digits are not a hexadecimal token, which has an `x` (R95). -/
theorem isHexToken_of_isDigit {t : Token} (h : ∀ c ∈ t, c.isDigit = true) : isHexToken t = false := by
  unfold isHexToken
  split
  · exact absurd (h 'x' (by simp)) (by decide)
  · rfl

theorem nameStart_of_isDigit {c : Char} (h : c.isDigit = true) : nameStart c = false := by
  have hr := Char.isDigit_iff_toNat.mp h
  have hle (a : Char) (ha : '9'.toNat < a.toNat) : ¬ a ≤ c := fun hac => by
    have : a.toNat ≤ c.toNat := hac
    omega
  have hne : c ≠ '_' := by rintro rfl; exact absurd h (by decide)
  simp [nameStart, hle, hne]

/-- Decimal digits are not an identifier, which begins with a letter or `_`. -/
theorem isName_of_isDigit {t : Token} (h : ∀ c ∈ t, c.isDigit = true) : isName t = false := by
  cases t with
  | nil => rfl
  | cons c l => rw [isName, nameStart_of_isDigit (h c List.mem_cons_self)]; rfl

/-! ## Operand tokens -/

theorem tokenNumber_toDigits (n : Nat) : tokenNumber (Nat.toDigits 10 n) = some n := by
  simp [tokenNumber, isHexToken_of_isDigit (isDigit_of_mem_toDigits n), numberOf_toDigits]

theorem tokenByte_toDigits (b : Byte) : tokenByte (Nat.toDigits 10 b.toNat) = .ok b := by
  simp [tokenByte, tokenNumber_toDigits, Nat.le_of_lt_succ b.isLt]

theorem addressNumber_toDigits (b : Byte) : addressNumber (Nat.toDigits 10 b.toNat) = .ok b := by
  simp [addressNumber, isHexToken_of_isDigit (isDigit_of_mem_toDigits _), tokenByte_toDigits]

theorem tokenReg_regToken {n : Nat} (h : n < Config.nregs) : tokenReg (regToken n) = .ok (BitVec.ofNat 8 n) := by
  simp [tokenReg, regToken, numberOf_toDigits, h]

theorem resolveImm_toDigits {consts : NameTable} {b : Byte} (h : consts.find (Nat.toDigits 10 b.toNat) = none) :
    resolveImm consts (Nat.toDigits 10 b.toNat) = .ok b := by
  rw [resolveImm, h]
  exact tokenByte_toDigits b

theorem resolveAddr_toDigits {consts labels : NameTable} {b : Byte}
    (h : consts.find (Nat.toDigits 10 b.toNat) = none ∧ labels.find (Nat.toDigits 10 b.toNat) = none) (op : Operation) :
    resolveAddr consts labels op (Nat.toDigits 10 b.toNat) = .ok b := by
  obtain ⟨hc, hl⟩ := h
  rw [resolveAddr, resolveCodeAddr, resolveDataAddr, hc, hl, isName_of_isDigit (isDigit_of_mem_toDigits _),
    addressNumber_toDigits]
  simp

/-! ## Emission -/

theorem operationNamed_mnemonicOf (op : Operation) : operationNamed (mnemonicOf op) = some op := by cases op <;> rfl

/-- The operands of a format as the assembler's source writes them (R101); `operandTokens_eq` ties it to `operandTokens`. -/
def tokensOf : Operands → List Token
  | .none => []
  | .reg r => [regToken r.toNat]
  | .pair d s => [regToken d.toNat, regToken s.toNat]
  | .addr a => [Nat.toDigits 10 a.toNat]
  | .regImm r k => [regToken r.toNat, Nat.toDigits 10 k.toNat]
  | .regAddr r a => [regToken r.toNat, Nat.toDigits 10 a.toNat]

/-- The source of an instruction writes the operands of its default shape (R101). -/
theorem operandTokens_eq (i : Instr) : operandTokens i = tokensOf (encodedOperands (shapeOf (operationOf i)) i) := by
  cases i <;> rfl

/-- The assembler packs a register pair as the encoder does (R98). -/
theorem ofNat_shiftLeft_or_ofNat (d s : Reg) :
    BitVec.ofNat 8 d.toNat <<< 4 ||| BitVec.ofNat 8 s.toNat = pairByte d s := by
  rw [BitVec.ofNat_toNat, BitVec.ofNat_toNat, pairByte]

theorem tokenReg_regToken_of_validRegByte {b : Byte} (h : validRegByte b = true) : tokenReg (regToken b.toNat) = .ok b := by
  rw [tokenReg_regToken (of_decide_eq_true h), BitVec.ofNat_toNat, BitVec.setWidth_eq]

/-- Each format emits the opcode and the operand bytes the encoder writes (R98). -/
theorem emitInstr_tokensOf {m : Config.Encoding} {consts labels : NameTable} {op : Operation} {f : Shape} {i : Instr}
    (hf : m.shape op = f) (hw : i.wellFormed = true)
    (ht : ∀ t ∈ tokensOf (encodedOperands f i), consts.find t = none ∧ labels.find t = none) :
    emitInstr m consts labels op (tokensOf (encodedOperands f i)) = .ok (m.byte op :: operandBytes f i) := by
  have hr := tokenReg_regToken_of_validRegByte (validRegByte_getD_regByte hw)
  cases f with
  | n => simp only [emitInstr, hf, encodedOperands, tokensOf, operandBytes]
  | r => simp only [emitInstr, hf, encodedOperands, tokensOf, operandBytes, hr, Except.map]
  | rr =>
    have hd := tokenReg_regToken i.pair.1.isLt
    have hs := tokenReg_regToken i.pair.2.isLt
    simp only [emitInstr, hf, encodedOperands, tokensOf, operandBytes, hd, hs, Except.map, Except.bind,
      ofNat_shiftLeft_or_ofNat]
  | a =>
    have ha := resolveAddr_toDigits (ht _ (.head _)) op
    simp only [emitInstr, hf, encodedOperands, tokensOf, operandBytes, ha, Except.map]
  | ri =>
    have hk := resolveImm_toDigits (ht _ (.tail _ (.head _))).1
    simp only [emitInstr, hf, encodedOperands, tokensOf, operandBytes, hr, hk, Except.map, Except.bind]
  | ra =>
    have ha := resolveAddr_toDigits (ht _ (.tail _ (.head _))) op
    simp only [emitInstr, hf, encodedOperands, tokensOf, operandBytes, hr, ha, Except.map, Except.bind]

/-- Settles O8: the source writes the operands of the default shape, and each format emits them as the encoder does. -/
theorem assembledInstructionIsItsEncoding : Obligations.AssembledInstructionIsItsEncoding := by
  intro m consts labels i hw hs ht
  rw [operandTokens_eq] at ht ⊢
  rw [encodeWith, hs]
  exact ⟨operationNamed_mnemonicOf _, emitInstr_tokensOf hs hw ht⟩

end Sys2Proof.Proofs

/-! # The meaning of each instruction

Each instruction completes in the state of the tables (`nextState`), so its own rule is read off from them. -/

namespace Sys2Proof.Proofs

open Sys2Proof.Machine Sys2Proof.Safety

/-! ## HLT and NOP -/

/-- Settles O33: the next states by the tables differ from s in pc, and for HLT in halted, and a halted core stays. -/
theorem haltAndNop : Obligations.HaltAndNop := by
  refine ⟨fun s => ⟨rfl, _, exec_eq_next rfl, ?_, rfl, ?_⟩, fun s => ⟨rfl, _, exec_eq_next rfl, ?_, rfl⟩⟩
  · exact advances_nextState (i := .hlt) rfl defaultEncoding
  · exact stepResult_halted rfl
  · exact advances_nextState (i := .nop) rfl defaultEncoding

end Sys2Proof.Proofs

/-! # Data movement: LDI, MOV, LDA, LDR, STORE

The rule of each is read off the tables: the byte of `resultOf` in the destination, or the store of `storeOf` in memory.
What the instructions of one format share, their encoding and the check of their register byte, is said once. -/

namespace Sys2Proof.Proofs

open Sys2Proof.Machine Sys2Proof.Safety

/-! ## What the instructions of a format share -/

/-- A register pair is packed as `(dst << 4) | src` (R73). -/
theorem toNat_pairByte (d s : Reg) : (pairByte d s).toNat = 16 * d.toNat + s.toNat := by
  have hd : (d.setWidth 8 <<< 4 : Byte).toNat = d.toNat <<< 4 := by
    simp only [Nat.shiftLeft_eq, BitVec.toNat_shiftLeft, BitVec.toNat_setWidth]
    omega
  have hs : (s.setWidth 8 : Byte).toNat = s.toNat := BitVec.toNat_setWidth_of_le (by decide)
  rw [pairByte, BitVec.toNat_or, hd, hs, ← Nat.shiftLeft_add_eq_or_of_lt s.isLt, Nat.shiftLeft_eq, Nat.mul_comm]

/-- The bytes of an instruction of format RR as numbers (R73). -/
theorem encodesTo_of_shapeOf_rr {i : Instr} (h : shapeOf (operationOf i) = .rr) :
    encodesTo i [(defaultOpcode (operationOf i)).toNat, 16 * i.pair.1.toNat + i.pair.2.toNat] := by
  have henc : encode i = [defaultOpcode (operationOf i), pairByte i.pair.1 i.pair.2] := by
    change _ :: operandBytes (shapeOf (operationOf i)) i = _
    rw [h]
    rfl
  rw [encodesTo, henc, ← toNat_pairByte]
  rfl

/-- An instruction with a register byte whose operation raises no error completes, in the state of the tables, wherever
the byte is at most 15 (R77). -/
theorem completesOn_exec {i : Instr} {b : Byte} {s : State} {ok : Reg → State → Prop} (hb : i.regByte = some b)
    (he : executeError i s = none) (hok : ok (named b) (nextState defaultEncoding i s)) :
    CompletesOn b (exec i s) ok := by
  rw [exec_eq, ← withReg_eq_nextOr (k := fun _ => .next (nextState defaultEncoding i s)) hb (by rw [he]; rfl)]
  exact completesOn_of ⟨_, rfl, hok⟩

/-- The destination register holds the result (R22). -/
theorem nextState_getReg_of_writesReg {i : Instr} {d : Reg} (h : writesReg i = some d) (m : Config.Encoding)
    (s : State) : (nextState m i s).getReg d = resultOf i s := by
  rw [nextState_getReg, if_pos h]

/-! ## The rules -/

/-- Settles O25: the results are the immediate and Rs's old value, the latter also where Rs is the destination. -/
theorem loadImmediateAndMove : Obligations.LoadImmediateAndMove := by
  refine ⟨fun rd imm s => ⟨rfl, completesOn_exec rfl rfl ⟨?_, rfl, ?_⟩⟩,
    fun rd rs s => ⟨encodesTo_of_shapeOf_rr (i := .mov rd rs) rfl, _, exec_eq_next rfl, ?_, ?_, rfl, ?_⟩⟩
  · exact nextState_getReg_of_writesReg rfl _ s
  · exact advances_nextState (i := .ldi rd imm) rfl defaultEncoding
  · exact nextState_getReg_of_writesReg rfl _ s
  · rw [nextState_getReg]
    exact ite_self _
  · exact advances_nextState (i := .mov rd rs) rfl defaultEncoding

/-- Settles O26: the results are bytes of the old memory, LDR's at the address Rs had before. -/
theorem loadsReadMemory : Obligations.LoadsReadMemory := by
  refine ⟨fun rd addr s => ⟨rfl, completesOn_exec rfl rfl ⟨?_, rfl, ?_⟩⟩,
    fun rd rs s => ⟨encodesTo_of_shapeOf_rr (i := .ldr rd rs) rfl, _, exec_eq_next rfl, ?_, fun hne => ?_, rfl, ?_⟩⟩
  · exact nextState_getReg_of_writesReg rfl _ s
  · exact advances_nextState (i := .lda rd addr) rfl defaultEncoding
  · exact nextState_getReg_of_writesReg rfl _ s
  · have hdst : writesReg (.ldr rd rs) ≠ some rs := fun h => hne (Option.some.inj h).symm
    rw [nextState_getReg, if_neg hdst]
  · exact advances_nextState (i := .ldr rd rs) rfl defaultEncoding

/-- Settles O27: the one store of the table is Rs's byte at the operand address. -/
theorem storeWritesOneByte : Obligations.StoreWritesOneByte := by
  refine fun rs addr s => ⟨rfl, completesOn_exec rfl rfl ⟨fun a => ?_, rfl, ?_⟩⟩
  · exact memRead_nextState_of_some (i := .store rs addr) rfl _ a
  · exact advances_nextState (i := .store rs addr) rfl defaultEncoding

end Sys2Proof.Proofs

/-! # The stack: PUSH and POP, and what a run of pushes does

The instructions that push, PUSH, CALL and CALLR, share one account: where they complete, what they store and what they do
to sp. PUSH's own rule and the capacity of the stack are read off from it; POP's, with RET, from its counterpart. -/

namespace Sys2Proof.Proofs

open Sys2Proof.Machine Sys2Proof.Safety

/-! ## The register byte -/

theorem wellFormed_iff_of_regByte {i : Instr} {b : Byte} (hb : i.regByte = some b) :
    i.wellFormed = true ↔ b.toNat ≤ 15 := by
  rw [Instr.wellFormed, hb]
  exact validRegByte_iff b

/-- The register byte is checked before anything else (R77, R211). -/
theorem exec_eq_invalidOperand {i : Instr} {b : Byte} (hb : i.regByte = some b) (h : 15 < b.toNat) (s : State) :
    exec i s = .fault .invalidOperand := by
  have hw : i.wellFormed = false := Bool.eq_false_iff.mpr (mt (wellFormed_iff_of_regByte hb).mp (Nat.not_le.mpr h))
  rw [exec_eq, errorOf, if_pos hw]
  rfl

/-- A well-formed instruction raises only its operation's own error. -/
theorem errorOf_of_wellFormed {i : Instr} (hw : i.wellFormed = true) (s : State) : errorOf i s = executeError i s := by
  rw [errorOf, hw]
  rfl

/-! ## Pushing -/

@[simp] theorem nextState_sp (m : Config.Encoding) (i : Instr) (s : State) : (nextState m i s).sp = spAfter i s := rfl

theorem errorOf_of_pushes {i : Instr} {s : State} (hp : pushes i = true) (hw : i.wellFormed = true) (hs : s.sp ≠ 0xEA) :
    errorOf i s = none := by
  rw [errorOf_of_wellFormed hw, executeError_of_pushes hp, if_neg hs]

/-- A push onto a full stack (R203). -/
theorem exec_eq_stackOverflow {i : Instr} {s : State} (hp : pushes i = true) (hw : i.wellFormed = true)
    (hs : s.sp = 0xEA) : exec i s = .fault (.stackOverflow 0xEA) := by
  rw [exec_eq, errorOf_of_wellFormed hw, executeError_of_pushes hp, if_pos hs]
  rfl

/-- A push stores at the old sp (R132). -/
theorem storeOf_of_pushes {i : Instr} (hp : pushes i = true) (s : State) : ∃ v, storeOf i s = some (s.sp, v) := by
  cases i with
  | push | call | callr => exact ⟨_, rfl⟩
  | _ => cases hp

/-- A push leaves every byte but the one at the old sp. -/
theorem memRead_nextState_of_pushes {i : Instr} {s : State} {a : Byte} (hp : pushes i = true) (ha : s.sp ≠ a)
    (m : Config.Encoding) : (nextState m i s).memRead a = s.memRead a := by
  obtain ⟨v, hv⟩ := storeOf_of_pushes hp s
  rw [memRead_nextState_of_some hv, if_neg ha.symm]

/-- Settles O28: the one store of the table is Rs's byte at the old sp. -/
theorem pushWritesAtSpThenDecrements : Obligations.PushWritesAtSpThenDecrements := by
  refine fun rs s => ⟨rfl, ?_⟩
  have hw : (Instr.push rs).wellFormed = true ↔ rs.toNat ≤ 15 := wellFormed_iff_of_regByte rfl
  split_ifs with hb hs
  · exact exec_eq_invalidOperand rfl hb s
  · exact exec_eq_stackOverflow rfl (hw.mpr (Nat.not_lt.mp hb)) hs
  · have he := errorOf_of_pushes rfl (hw.mpr (Nat.not_lt.mp hb)) hs
    refine ⟨_, exec_eq_next he, memRead_nextState_of_some rfl _, ?_, nextState_getReg _ _ _ _, rfl, ?_⟩
    · rw [nextState_sp, spAfter_of_pushes rfl]
      bv_omega
    · exact advances_nextState (i := .push rs) rfl defaultEncoding

/-! ## Popping -/

theorem errorOf_of_pops {i : Instr} {s : State} (hp : pops i = true) (hw : i.wellFormed = true) (hs : s.sp ≠ 0xFF) :
    errorOf i s = none := by
  rw [errorOf_of_wellFormed hw, executeError_of_pops hp, if_neg hs]

/-- A pop of an empty stack (R204). -/
theorem exec_eq_stackUnderflow {i : Instr} {s : State} (hp : pops i = true) (hw : i.wellFormed = true)
    (hs : s.sp = 0xFF) : exec i s = .fault (.stackUnderflow 0xFF) := by
  rw [exec_eq, errorOf_of_wellFormed hw, executeError_of_pops hp, if_pos hs]
  rfl

/-- Settles O29: the result of the table is the byte at the new sp, and nothing is stored. -/
theorem popIncrementsSpThenReads : Obligations.PopIncrementsSpThenReads := by
  refine fun rd s => ⟨rfl, ?_⟩
  have hw : (Instr.pop rd).wellFormed = true ↔ rd.toNat ≤ 15 := wellFormed_iff_of_regByte rfl
  split_ifs with hb hs
  · exact exec_eq_invalidOperand rfl hb s
  · exact exec_eq_stackUnderflow rfl (hw.mpr (Nat.not_lt.mp hb)) hs
  · have he := errorOf_of_pops rfl (hw.mpr (Nat.not_lt.mp hb)) hs
    refine ⟨_, exec_eq_next he, (toNat_spAfter_of_pops rfl he).2, ?_, memRead_nextState_of_none rfl _, rfl, ?_⟩
    · exact nextState_getReg_of_writesReg rfl _ s
    · exact advances_nextState (i := .pop rd) rfl defaultEncoding

/-- Settles O51: the POP reads at the PUSH's old sp, where the PUSH stored. -/
theorem popAfterPushGivesTheByte : Obligations.PopAfterPushGivesTheByte := by
  intro rs rd s t hsp hrd ht
  obtain ⟨he, rfl⟩ := exec_next ht
  obtain ⟨hroom, hdec⟩ := toNat_spAfter_of_pushes (i := .push rs) rfl he hsp
  have hback : spAfter (.push rs) s + 1 = s.sp := BitVec.sub_add_cancel s.sp 1
  have hsome : spAfter (.push rs) s ≠ 0xFF := by bv_omega
  have hw : (Instr.pop rd).wellFormed = true := (wellFormed_iff_of_regByte rfl).mpr hrd
  refine ⟨_, exec_eq_next (errorOf_of_pops rfl hw hsome), ?_, hback⟩
  calc (nextState _ (.pop rd) (nextState _ (.push rs) s)).getReg (named rd)
      = (nextState _ (.push rs) s).memRead (spAfter (.push rs) s + 1) := nextState_getReg_of_writesReg rfl _ _
    _ = s.getReg (named rs) := by rw [hback, memRead_nextState_of_some rfl, if_pos rfl]

/-! ## A run of pushes -/

theorem execAll_cons_of_next {i : Instr} {s t : State} (h : exec i s = .next t) (l : List Instr) :
    execAll (i :: l) s = execAll l t := by
  rw [execAll, h]

theorem execAll_cons_of_fault {i : Instr} {s : State} {e : Fault} (h : exec i s = .fault e) (l : List Instr) :
    execAll (i :: l) s = .fault e := by
  rw [execAll, h]

/-- Pushes that fit above address 0xEA complete, each lowering sp by 1, and none stores at 0xEA. -/
theorem completes_execAll_of_pushes {l : List Instr} {s : State} (hl : ∀ i ∈ l, pushes i = true ∧ i.wellFormed = true)
    (hs : 0xEA + l.length ≤ s.sp.toNat) :
    Completes (execAll l s) fun t => t.sp.toNat + l.length = s.sp.toNat ∧ t.memRead 0xEA = s.memRead 0xEA := by
  induction l generalizing s with
  | nil => exact ⟨s, rfl, rfl, rfl⟩
  | cons i l ih =>
    obtain ⟨⟨hp, hw⟩, hl⟩ := List.forall_mem_cons.mp hl
    rw [List.length_cons] at hs ⊢
    have hne : s.sp ≠ 0xEA := by bv_omega
    have he := errorOf_of_pushes hp hw hne
    obtain ⟨-, hdec⟩ := toNat_spAfter_of_pushes hp he (by omega)
    obtain ⟨t, ht, hsp, hmem⟩ := ih (s := nextState defaultEncoding i s) hl (by rw [nextState_sp]; omega)
    refine ⟨t, (execAll_cons_of_next (exec_eq_next he) l).trans ht, ?_, ?_⟩
    · rw [nextState_sp] at hsp
      omega
    · rw [hmem, memRead_nextState_of_pushes hp hne]

/-- More pushes than there is room for end in StackOverflow. -/
theorem execAll_eq_stackOverflow {l : List Instr} {s : State} (hl : ∀ i ∈ l, pushes i = true ∧ i.wellFormed = true)
    (hlow : 0xEA ≤ s.sp.toNat) (hs : s.sp.toNat < 0xEA + l.length) : execAll l s = .fault (.stackOverflow 0xEA) := by
  induction l generalizing s with
  | nil => exact absurd hs (Nat.not_lt.mpr hlow)
  | cons i l ih =>
    obtain ⟨⟨hp, hw⟩, hl⟩ := List.forall_mem_cons.mp hl
    rw [List.length_cons] at hs
    by_cases hfull : s.sp = 0xEA
    · exact execAll_cons_of_fault (exec_eq_stackOverflow hp hw hfull) l
    · have he := errorOf_of_pushes hp hw hfull
      obtain ⟨-, hdec⟩ := toNat_spAfter_of_pushes hp he hlow
      rw [execAll_cons_of_next (exec_eq_next he)]
      refine ih hl (le_spAfter he hlow) ?_
      rw [nextState_sp]
      omega

/-- Settles O53: from sp = 0xFF there is room for 0xFF - 0xEA = 21 pushes. -/
theorem twentyOneBytesFitOnTheStack : Obligations.TwentyOneBytesFitOnTheStack := by
  intro l s hs hl
  have hempty : s.sp.toNat = 0xFF := by rw [hs]; rfl
  split_ifs with hlen
  · rw [← hempty]
    exact completes_execAll_of_pushes hl (by omega)
  · exact execAll_eq_stackOverflow hl (by omega) (by omega)

end Sys2Proof.Proofs

/-! # Arithmetic: ADD, SUB, MUL, DIV, MOD with their immediate forms, INC, DEC

Each rule is read off the tables: the result, its Z and N, and the carry of `carryAfter`. What the instructions that write
Z and N share is said once; an instruction's own part is its result and its carry as numbers (R140). -/

namespace Sys2Proof.Proofs

open Sys2Proof.Machine Sys2Proof.Safety

/-! ## What the flag-writing instructions share -/

theorem overridesPc_of_writesZN {i : Instr} (h : writesZN i = true) (s : State) : overridesPc i s = false := by
  cases i <;> simp_all [writesZN, overridesPc]

/-- The destination register as a number (R22). -/
theorem regVal_nextState {i : Instr} {d : Reg} (h : writesReg i = some d) (m : Config.Encoding) (s : State) :
    regVal (nextState m i s) d = (resultOf i s).toNat := by
  rw [regVal, nextState_getReg_of_writesReg h]

/-- What an instruction that writes Z and N writes, for a result and a carry that are the numbers meant. -/
theorem writes_nextState {i : Instr} {s : State} {d : Reg} {n : Nat} {c : Prop} (hd : writesReg i = some d)
    (hzn : writesZN i = true) (hr : (resultOf i s).toNat = n) (hc : (flagsAfter i s).c = true ↔ c) :
    Writes s (nextState defaultEncoding i s) d n c (encode i).length := by
  subst hr
  obtain ⟨hz, hn⟩ := flagsAfter_of_writesZN hzn s
  refine ⟨regVal_nextState hd _ s, ⟨?_, ?_, hc, rfl⟩, advances_nextState (overridesPc_of_writesZN hzn s) _⟩
  · exact (Bool.eq_iff_iff.mp hz).trans (zero_iff _)
  · exact (Bool.eq_iff_iff.mp hn).trans (bit7_iff _)

/-! ## Sum, difference, product -/

/-- Settles O14: the result is the sum of bytes, the carry that of the true sum; INC adds 1. -/
theorem addWrapsWithCarry : Obligations.AddWrapsWithCarry := by
  refine ⟨fun rd rs s => ⟨encodesTo_of_shapeOf_rr (i := .add rd rs) rfl, _, exec_eq_next rfl, ?_⟩,
    fun rd imm s => ⟨rfl, completesOn_exec rfl rfl ?_⟩, fun rd s => ⟨rfl, completesOn_exec rfl rfl ?_⟩⟩
  · exact writes_nextState (i := .add rd rs) rfl rfl (BitVec.toNat_add _ _) decide_eq_true_iff
  · exact writes_nextState (i := .addi rd imm) rfl rfl (BitVec.toNat_add _ _) decide_eq_true_iff
  · have hcarry : 255 < regVal s (named rd) + 1 ↔ regVal s (named rd) = 255 := by
      have hlt : regVal s (named rd) < 256 := BitVec.isLt _
      omega
    exact writes_nextState (i := .inc rd) rfl rfl (BitVec.toNat_add _ _) (decide_eq_true_iff.trans hcarry)

theorem toNat_byte_sub (a b : Byte) : (a - b).toNat = (a.toNat + 256 - b.toNat) % 256 := by
  bv_omega

/-- Settles O15: the result is the difference of bytes, the carry the borrow; DEC subtracts 1. -/
theorem subtractWrapsWithBorrow : Obligations.SubtractWrapsWithBorrow := by
  refine ⟨fun rd rs s => ⟨encodesTo_of_shapeOf_rr (i := .sub rd rs) rfl, _, exec_eq_next rfl, ?_⟩,
    fun rd imm s => ⟨rfl, completesOn_exec rfl rfl ?_⟩, fun rd s => ⟨rfl, completesOn_exec rfl rfl ?_⟩⟩
  · exact writes_nextState (i := .sub rd rs) rfl rfl (toNat_byte_sub _ _) decide_eq_true_iff
  · exact writes_nextState (i := .subi rd imm) rfl rfl (toNat_byte_sub _ _) decide_eq_true_iff
  · exact writes_nextState (i := .dec rd) rfl rfl (toNat_byte_sub _ 1) (decide_eq_true_iff.trans Nat.lt_one_iff)

/-- Settles O16: the result is the product of bytes, the carry that of the true product. -/
theorem multiplyKeepsTheLowByte : Obligations.MultiplyKeepsTheLowByte := by
  refine ⟨fun rd rs s => ⟨encodesTo_of_shapeOf_rr (i := .mul rd rs) rfl, _, exec_eq_next rfl, ?_⟩,
    fun rd imm s => ⟨rfl, completesOn_exec rfl rfl ?_⟩⟩
  · exact writes_nextState (i := .mul rd rs) rfl rfl (BitVec.toNat_mul _ _) decide_eq_true_iff
  · exact writes_nextState (i := .muli rd imm) rfl rfl (BitVec.toNat_mul _ _) decide_eq_true_iff

/-! ## Quotient and remainder -/

/-- Where the only error left is that of the divisor k, the instruction raises it for k = 0 and else completes in the
state of the tables (R205). -/
theorem divisionByZero_or_completes {i : Instr} {s : State} {k : Nat} {op : DivOp} {ok : State → Prop}
    (hw : i.wellFormed = true) (he : executeError i s = if k = 0 then some (.divisionByZero op) else none)
    (hok : ok (nextState defaultEncoding i s)) :
    if k = 0 then exec i s = .fault (.divisionByZero op) else Completes (exec i s) ok := by
  rw [← errorOf_of_wellFormed hw] at he
  split_ifs at he ⊢
  · rw [exec_eq, he]
    rfl
  · exact ⟨_, exec_eq_next he, hok⟩

/-- The immediate forms check the register byte before the divisor (R211). -/
theorem invalidOperand_or_divisionByZero_or_completes {i : Instr} {b : Byte} {s : State} {k : Nat} {op : DivOp}
    {ok : State → Prop} (hb : i.regByte = some b)
    (he : executeError i s = if k = 0 then some (.divisionByZero op) else none)
    (hok : ok (nextState defaultEncoding i s)) :
    if 15 < b.toNat then exec i s = .fault .invalidOperand
    else if k = 0 then exec i s = .fault (.divisionByZero op) else Completes (exec i s) ok := by
  by_cases h : 15 < b.toNat
  · rw [if_pos h]
    exact exec_eq_invalidOperand hb h s
  · rw [if_neg h]
    exact divisionByZero_or_completes ((wellFormed_iff_of_regByte hb).mpr (Nat.not_lt.mp h)) he hok

/-- C is cleared where the table of carries says 0, as for a quotient or a remainder (D9). -/
theorem flagsAfter_c_of_carryAfter_false {i : Instr} {s : State} (h : carryAfter i s = some false) :
    (flagsAfter i s).c = true ↔ False := by
  simp [flagsAfter, h]

/-- Settles O17: the result is the floor quotient of bytes. -/
theorem divideGivesTheFloorQuotient : Obligations.DivideGivesTheFloorQuotient := by
  refine ⟨fun rd rs s => ⟨encodesTo_of_shapeOf_rr (i := .div rd rs) rfl, divisionByZero_or_completes rfl rfl ?_⟩,
    fun rd imm s => ⟨rfl, invalidOperand_or_divisionByZero_or_completes rfl rfl ?_⟩⟩
  · exact writes_nextState (i := .div rd rs) rfl rfl BitVec.toNat_udiv (flagsAfter_c_of_carryAfter_false rfl)
  · exact writes_nextState (i := .divi rd imm) rfl rfl BitVec.toNat_udiv (flagsAfter_c_of_carryAfter_false rfl)

/-- Settles O18: the result is the remainder of bytes. -/
theorem moduloGivesTheRemainder : Obligations.ModuloGivesTheRemainder := by
  refine ⟨fun rd rs s => ⟨encodesTo_of_shapeOf_rr (i := .mod rd rs) rfl, divisionByZero_or_completes rfl rfl ?_⟩,
    fun rd imm s => ⟨rfl, invalidOperand_or_divisionByZero_or_completes rfl rfl ?_⟩⟩
  · exact writes_nextState (i := .mod rd rs) rfl rfl BitVec.toNat_umod (flagsAfter_c_of_carryAfter_false rfl)
  · exact writes_nextState (i := .modi rd imm) rfl rfl BitVec.toNat_umod (flagsAfter_c_of_carryAfter_false rfl)

/-- A remainder is only ever taken by a divisor that is not 0 (R205). -/
theorem regVal_pos_of_errorOf_mod {rd rs : Reg} {s : State} (h : errorOf (.mod rd rs) s = none) : 0 < regVal s rs := by
  have he := executeError_of_errorOf h
  rw [executeError] at he
  split at he
  · cases he
  · exact Nat.pos_of_ne_zero ‹_›

/-- Settles O19: DIV leaves the quotient and MOD the remainder of the same two bytes, the divisor not 0. -/
theorem quotientAndRemainderRecombine : Obligations.QuotientAndRemainderRecombine := by
  intro rd rs s q r hq hr
  obtain ⟨-, rfl⟩ := exec_next hq
  obtain ⟨he, rfl⟩ := exec_next hr
  have hdiv : regVal (nextState defaultEncoding (.div rd rs) s) rd = regVal s rd / regVal s rs :=
    (regVal_nextState rfl _ s).trans BitVec.toNat_udiv
  have hmod : regVal (nextState defaultEncoding (.mod rd rs) s) rd = regVal s rd % regVal s rs :=
    (regVal_nextState rfl _ s).trans BitVec.toNat_umod
  rw [hdiv, hmod]
  exact ⟨(Nat.div_add_mod' _ _).symm, Nat.mod_lt _ (regVal_pos_of_errorOf_mod he)⟩

end Sys2Proof.Proofs

/-! # Logic and compare: AND, OR, XOR, NOT, CMP

Each rule is read off the tables, through what the flag-writing instructions share; the logic operations clear C,
and CMP leaves it (R29). -/

namespace Sys2Proof.Proofs

open Sys2Proof.Machine Sys2Proof.Safety

/-- A logic instruction of two registers: the bits of its result are those of the destination, the flags are the
destination's and C is cleared (D9). -/
theorem completes_exec_of_bits {i : Instr} {s : State} {d : Reg} {bit : Nat → Bool} (he : errorOf i s = none)
    (hd : writesReg i = some d) (hzn : writesZN i = true) (hc : carryAfter i s = some false)
    (hbit : ∀ k, (resultOf i s).getLsbD k = bit k) :
    Completes (exec i s) fun t =>
      Writes s t d (regVal t d) False (encode i).length ∧ ∀ k < 8, (t.getReg d).getLsbD k = bit k := by
  refine ⟨_, exec_eq_next he, ?_, fun k _ => ?_⟩
  · exact writes_nextState hd hzn (regVal_nextState hd _ s).symm (flagsAfter_c_of_carryAfter_false hc)
  · rw [nextState_getReg_of_writesReg hd]
    exact hbit k

/-- Settles O20: the results are the byte operations, bit by bit; the ones' complement of a byte is 255 minus it. -/
theorem logicWorksBitByBit : Obligations.LogicWorksBitByBit := by
  refine ⟨fun rd rs s => ⟨encodesTo_of_shapeOf_rr (i := .and rd rs) rfl, ?_⟩,
    fun rd rs s => ⟨encodesTo_of_shapeOf_rr (i := .or rd rs) rfl, ?_⟩,
    fun rd rs s => ⟨encodesTo_of_shapeOf_rr (i := .xor rd rs) rfl, ?_⟩,
    fun rd s => ⟨rfl, completesOn_exec rfl rfl ?_⟩⟩
  · exact completes_exec_of_bits (i := .and rd rs) rfl rfl rfl rfl fun _ => BitVec.getLsbD_and
  · exact completes_exec_of_bits (i := .or rd rs) rfl rfl rfl rfl fun _ => BitVec.getLsbD_or
  · exact completes_exec_of_bits (i := .xor rd rs) rfl rfl rfl rfl fun _ => BitVec.getLsbD_xor
  · exact writes_nextState (i := .not rd) rfl rfl BitVec.toNat_not (flagsAfter_c_of_carryAfter_false rfl)

/-- CMP's verdict as a number of the numbers compared (R164). -/
theorem toNat_compareVerdict (a b : Byte) :
    (compareVerdict a b).toNat = if a.toNat = b.toNat then 0 else if b.toNat < a.toNat then 1 else 2 := by
  simp only [compareVerdict, apply_ite BitVec.toNat, BitVec.toNat_inj]
  rfl

/-- Settles O21: the verdict is the result of the tables C has no entry there; N is 0 by R29's table (O37). -/
theorem compareWritesItsVerdict : Obligations.CompareWritesItsVerdict := by
  obtain ⟨-, hcmp, -⟩ := flagsFollowTheTable
  intro rd rs s
  have hnext : exec (.cmp rd rs) s = .next (nextState defaultEncoding (.cmp rd rs) s) := exec_eq_next rfl
  obtain ⟨-, hn⟩ := hcmp rd rs s _ hnext
  refine ⟨encodesTo_of_shapeOf_rr (i := .cmp rd rs) rfl, _, hnext, ?_, hn⟩
  exact writes_nextState (i := .cmp rd rs) rfl rfl (toNat_compareVerdict _ _) Iff.rfl

end Sys2Proof.Proofs

/-! # Control transfer: JMP, JZ, JNZ, JMPR, CALL, CALLR, RET

The jumps are read off the tables: the target of `targetOf`, and no flag. CALL and CALLR push the return address
(`storeOf_of_call`), so their rule, RET's, and the return to the byte after a call rest on the account of the stack. -/

namespace Sys2Proof.Proofs

open Sys2Proof.Machine Sys2Proof.Safety

/-! ## Jumps -/

/-- An instruction that completes and writes no flag leaves the flags as they were (R29). -/
theorem completes_and_flags_eq {i : Instr} {s : State} {ok : State → Prop} (hf : flagsAfter i s = s.flags)
    (h : Completes (exec i s) ok) : Completes (exec i s) fun t => ok t ∧ t.flags = s.flags := by
  obtain ⟨t, ht, hok⟩ := h
  obtain ⟨-, rfl⟩ := exec_next ht
  exact ⟨_, ht, hok, hf⟩

/-- Settles O30: where JZ and JNZ go is what O38 says of Z. -/
theorem jumpsGoToTheirTargets : Obligations.JumpsGoToTheirTargets := by
  obtain ⟨-, hjz, hjnz, -⟩ := onlyZIsEverRead
  refine ⟨fun addr s => ⟨rfl, ?_⟩, fun addr s => ⟨rfl, ?_⟩, fun addr s => ⟨rfl, ?_⟩, fun rs s => ⟨rfl, ?_⟩⟩
  · refine ⟨_, exec_eq_next rfl, ?_, rfl⟩
    exact pcAfter_of_overridesPc (i := .jmp addr) (s := s) rfl defaultEncoding
  · exact completes_and_flags_eq rfl (hjz addr s)
  · exact completes_and_flags_eq rfl (hjnz addr s)
  · refine completesOn_exec rfl rfl ⟨?_, nextState_getReg _ _ _ _, rfl⟩
    exact pcAfter_of_overridesPc (i := .jmpr rs) (s := s) rfl defaultEncoding

/-! ## Calls -/

section Call

variable {i : Instr} (hi : ∃ b, i = .call b ∨ i = .callr b) (s : State)
include hi

theorem pushes_of_call : pushes i = true := by
  obtain ⟨b, rfl | rfl⟩ := hi <;> rfl

/-- A call stores the address of the byte after it at the old sp (R173, R176). -/
theorem storeOf_of_call : storeOf i s = some (s.sp, s.pc + 2) := by
  obtain ⟨b, rfl | rfl⟩ := hi <;> rfl

theorem overridesPc_of_call : overridesPc i s = true := by
  obtain ⟨b, rfl | rfl⟩ := hi <;> rfl

theorem flagsAfter_of_call : flagsAfter i s = s.flags := by
  obtain ⟨b, rfl | rfl⟩ := hi <;> rfl

/-- The byte at the old sp is the return address, as a number. -/
theorem toNat_memRead_nextState_of_call (m : Config.Encoding) :
    ((nextState m i s).memRead s.sp).toNat = (s.pc.toNat + 2) % 256 := by
  rw [memRead_nextState_of_some (storeOf_of_call hi s), if_pos rfl]
  exact BitVec.toNat_add s.pc 2

/-- A call that is well formed overflows a full stack; else it completes, with the return address at the old sp. -/
theorem stackOverflow_or_completes_of_call (hw : i.wellFormed = true) :
    if s.sp = 0xEA then exec i s = .fault (.stackOverflow 0xEA)
    else Completes (exec i s) fun t =>
      (t.memRead s.sp).toNat = (s.pc.toNat + 2) % 256 ∧ (∀ a, a ≠ s.sp → t.memRead a = s.memRead a) ∧
      t.sp.toNat = (s.sp.toNat + 255) % 256 ∧ t.pc = targetOf i s ∧ t.flags = s.flags := by
  have hp := pushes_of_call hi
  split_ifs with hs
  · exact exec_eq_stackOverflow hp hw hs
  · refine ⟨_, exec_eq_next (errorOf_of_pushes hp hw hs), toNat_memRead_nextState_of_call hi s _,
      fun a ha => memRead_nextState_of_pushes hp ha.symm _, ?_, pcAfter_of_overridesPc (overridesPc_of_call hi s) _,
      flagsAfter_of_call hi s⟩
    rw [nextState_sp, spAfter_of_pushes hp]
    exact toNat_byte_sub s.sp 1

end Call

/-- Settles O31: CALLR's register byte is checked first, and what is left of either is a call. -/
theorem callsPushTheReturnAddress : Obligations.CallsPushTheReturnAddress := by
  refine ⟨fun addr s => ⟨rfl, ?_⟩, fun rs s => ⟨rfl, ?_⟩⟩
  · exact stackOverflow_or_completes_of_call (i := .call addr) ⟨addr, .inl rfl⟩ s rfl
  · by_cases hb : 15 < rs.toNat
    · rw [if_pos hb]
      exact exec_eq_invalidOperand rfl hb s
    · have hw : (Instr.callr rs).wellFormed = true := (wellFormed_iff_of_regByte rfl).mpr (Nat.not_lt.mp hb)
      rw [if_neg hb]
      exact stackOverflow_or_completes_of_call (i := .callr rs) ⟨rs, .inr rfl⟩ s hw

/-! ## Returns -/

/-- RET from a stack that is not empty goes to the byte on top of it (R174). -/
theorem completes_exec_ret {s : State} (hs : s.sp ≠ 0xFF) :
    Completes (exec .ret s) fun t => t.sp = s.sp + 1 ∧ t.pc = s.memRead (s.sp + 1) ∧ t.flags = s.flags :=
  ⟨_, exec_eq_next (errorOf_of_pops rfl rfl hs), rfl, rfl, rfl⟩

/-- Settles O32: the byte RET goes to is the one at the new sp. -/
theorem returnPopsThePc : Obligations.ReturnPopsThePc := by
  refine fun s => ⟨rfl, ?_⟩
  split_ifs with hs
  · exact exec_eq_stackUnderflow rfl rfl hs
  · obtain ⟨t, ht, hsp, hpc, hflags⟩ := completes_exec_ret hs
    refine ⟨t, ht, ?_, hsp ▸ hpc, hflags⟩
    rw [hsp]
    bv_omega

/-- Settles O52: the RET reads at the call's old sp, where the call stored the return address. -/
theorem returnGoesBackAfterTheCall : Obligations.ReturnGoesBackAfterTheCall := by
  intro i s t u hi hs ht husp hutop
  obtain ⟨he, rfl⟩ := exec_next ht
  have hp := pushes_of_call hi
  obtain ⟨-, hdec⟩ := toNat_spAfter_of_pushes hp he hs
  rw [nextState_sp] at husp
  have hback : u.sp + 1 = s.sp := by rw [husp, spAfter_of_pushes hp, BitVec.sub_add_cancel]
  have hsome : u.sp ≠ 0xFF := by bv_omega
  obtain ⟨v, hv, hsp, hpc, -⟩ := completes_exec_ret hsome
  refine ⟨v, hv, ?_, hsp.trans hback⟩
  rw [hpc, hback, hutop]
  exact toNat_memRead_nextState_of_call hi s _

end Sys2Proof.Proofs

/-! # Shift and rotate: SHL, SHR, ROL, ROR

The rules are read off the tables, through what the flag-writing instructions share; an instruction's own part is its
result as a number. That the rotates undo each other is a fact about bits: in the ring of bit positions `Fin 8`, ROL and
ROR move every bit by 1 and by -1, so a list of rotates moves them by the sum. -/

namespace Sys2Proof.Proofs

open Sys2Proof.Machine Sys2Proof.Safety

/-! ## The results as numbers -/

theorem toNat_shiftLeft_one (a : Byte) : (a <<< 1).toNat = 2 * a.toNat % 256 := by
  rw [BitVec.toNat_shiftLeft, Nat.shiftLeft_eq, Nat.mul_comm]

theorem toNat_ushiftRight_one (a : Byte) : (a >>> 1).toNat = a.toNat / 2 := by
  rw [BitVec.toNat_ushiftRight, Nat.shiftRight_eq_div_pow]

/-- The two halves of a rotate share no bit: one is below position p, the other is not. -/
theorem toNat_shiftLeft_or_ushiftRight (a : Byte) {p q : Nat} (h : p + q = 8) :
    (a <<< p ||| a >>> q).toNat = a.toNat * 2 ^ p % 256 + a.toNat / 2 ^ q := by
  have hdisj : a <<< p &&& a >>> q = 0 := by
    refine BitVec.eq_of_getLsbD_eq fun k _ => ?_
    rw [BitVec.getLsbD_and, BitVec.getLsbD_shiftLeft, BitVec.getLsbD_ushiftRight]
    by_cases hk : k < p
    · simp [hk]
    · simp [BitVec.getLsbD_of_ge a (q + k) (by omega)]
  rw [← BitVec.add_eq_or_of_and_eq_zero _ _ hdisj, BitVec.toNat_add_of_and_eq_zero hdisj, BitVec.toNat_shiftLeft,
    BitVec.toNat_ushiftRight, Nat.shiftLeft_eq, Nat.shiftRight_eq_div_pow]

theorem toNat_rotateLeft_one (a : Byte) : (a.rotateLeft 1).toNat = 2 * a.toNat % 256 + a.toNat / 128 := by
  rw [Nat.mul_comm]
  exact toNat_shiftLeft_or_ushiftRight a (p := 1) (q := 7) rfl

theorem toNat_rotateRight_one (a : Byte) : (a.rotateRight 1).toNat = a.toNat / 2 + 128 * (a.toNat % 2) := by
  rw [BitVec.rotateRight_def, BitVec.or_comm]
  exact (toNat_shiftLeft_or_ushiftRight a (p := 7) (q := 1) rfl).trans (by omega)

/-! ## The rules -/

/-- Settles O22: the results are the byte shifts; SHR's is below 128, so its N is 0. -/
theorem shiftsMoveOneBit : Obligations.ShiftsMoveOneBit := by
  refine ⟨fun rd s => ⟨rfl, completesOn_exec rfl rfl ?_⟩, fun rd s => ⟨rfl, completesOn_exec rfl rfl ⟨?_, ?_⟩⟩⟩
  · exact writes_nextState (i := .shl rd) rfl rfl (toNat_shiftLeft_one _) decide_eq_true_iff
  · exact writes_nextState (i := .shr rd) rfl rfl (toNat_ushiftRight_one _) decide_eq_true_iff
  · exact (BitVec.getLsbD_ushiftRight _ 1 7).trans (BitVec.getLsbD_of_ge _ _ (Nat.le_refl 8))

/-- Settles O23: the results are the byte rotates, the carry the bit carried around. -/
theorem rotatesCarryTheBitAround : Obligations.RotatesCarryTheBitAround := by
  refine ⟨fun rd s => ⟨rfl, completesOn_exec rfl rfl ?_⟩, fun rd s => ⟨rfl, completesOn_exec rfl rfl ?_⟩⟩
  · exact writes_nextState (i := .rol rd) rfl rfl (toNat_rotateLeft_one _) decide_eq_true_iff
  · exact writes_nextState (i := .ror rd) rfl rfl (toNat_rotateRight_one _) decide_eq_true_iff

/-! ## A run of rotates -/

/-- How many positions an instruction rotates its register to the left, modulo 8: 0 where it is no rotate. -/
def rotation : Instr → Fin 8
  | .rol _ => 1
  | .ror _ => -1
  | _ => 0

theorem getLsb_rotateLeft_one (a : Byte) (k : Fin 8) : (a.rotateLeft 1).getLsb k = a.getLsb (k - 1) := by
  fin_cases k <;> simp

theorem getLsb_rotateRight_one (a : Byte) (k : Fin 8) : (a.rotateRight 1).getLsb k = a.getLsb (k - -1) := by
  fin_cases k <;> simp

/-- A rotate of a valid register completes and moves each of its bits by `rotation`. -/
theorem completes_exec_of_rotate {i : Instr} {rd : Byte} (hi : i = .rol rd ∨ i = .ror rd) (hrd : rd.toNat ≤ 15)
    (s : State) : Completes (exec i s) fun t =>
      ∀ k, (t.getReg (named rd)).getLsb k = (s.getReg (named rd)).getLsb (k - rotation i) := by
  have hb : i.regByte = some rd := by obtain rfl | rfl := hi <;> rfl
  have hd : writesReg i = some (named rd) := by obtain rfl | rfl := hi <;> rfl
  have he : errorOf i s = none := by
    rw [errorOf_of_wellFormed ((wellFormed_iff_of_regByte hb).mpr hrd)]
    obtain rfl | rfl := hi <;> rfl
  refine ⟨_, exec_eq_next he, fun k => ?_⟩
  rw [nextState_getReg_of_writesReg hd]
  obtain rfl | rfl := hi
  · exact getLsb_rotateLeft_one _ k
  · exact getLsb_rotateRight_one _ k

/-- Rotates of one valid register complete and move each of its bits by the sum of their rotations. -/
theorem completes_execAll_of_rotates {l : List Instr} {rd : Byte} (hl : ∀ i ∈ l, i = .rol rd ∨ i = .ror rd)
    (hrd : rd.toNat ≤ 15) (s : State) : Completes (execAll l s) fun t =>
      ∀ k, (t.getReg (named rd)).getLsb k = (s.getReg (named rd)).getLsb (k - (l.map rotation).sum) := by
  induction l generalizing s with
  | nil => exact ⟨s, rfl, fun k => congrArg _ (sub_zero k).symm⟩
  | cons i l ih =>
    obtain ⟨hi, hl⟩ := List.forall_mem_cons.mp hl
    obtain ⟨t, ht, htk⟩ := completes_exec_of_rotate hi hrd s
    obtain ⟨u, hu, huk⟩ := ih hl t
    refine ⟨u, (execAll_cons_of_next ht l).trans hu, fun k => ?_⟩
    rw [huk, htk, List.map_cons, List.sum_cons, sub_add_eq_sub_sub_swap]

/-- Rotates that add up to a whole turn leave the register as it was. -/
theorem completes_execAll_of_sum_rotation {l : List Instr} {rd : Byte} (hl : ∀ i ∈ l, i = .rol rd ∨ i = .ror rd)
    (hrd : rd.toNat ≤ 15) (hsum : (l.map rotation).sum = 0) (s : State) :
    Completes (execAll l s) fun t => t.getReg (named rd) = s.getReg (named rd) := by
  obtain ⟨t, ht, htk⟩ := completes_execAll_of_rotates hl hrd s
  refine ⟨t, ht, BitVec.eq_of_getLsbD_eq fun k hk => ?_⟩
  have hbit := htk ⟨k, hk⟩
  rwa [hsum, sub_zero] at hbit

/-- Settles O24: eight times 1, eight times -1, and 1 - 1 are all 0 modulo 8. -/
theorem rotatesUndoEachOther : Obligations.RotatesUndoEachOther := by
  refine fun rd s hrd => ⟨?_, ?_, ?_⟩
  · exact completes_execAll_of_sum_rotation (fun i hi => .inl (List.eq_of_mem_replicate hi)) hrd rfl s
  · exact completes_execAll_of_sum_rotation (fun i hi => .inr (List.eq_of_mem_replicate hi)) hrd rfl s
  · exact completes_execAll_of_sum_rotation (by simp) hrd rfl s

end Sys2Proof.Proofs

/-! # Output: PRINT

The rule is read off the tables: `outAfter` appends the register's byte, whatever it is, and `writesReg` names no
register. -/

namespace Sys2Proof.Proofs

open Sys2Proof.Machine Sys2Proof.Safety

/-- Settles O35: PRINT has no error of its own, out grows by `printed`, and no register is a destination. -/
theorem printAppendsTheByte : Obligations.PrintAppendsTheByte := by
  refine fun rs s => ⟨rfl, completesOn_exec rfl rfl ⟨?_, ?_, rfl, ?_⟩⟩
  · exact outAfter_eq (.print rs) s
  · have hdst : writesReg (.print rs) ≠ some (named rs) := nofun
    rw [nextState_getReg, if_neg hdst]
  · exact advances_nextState (i := .print rs) rfl defaultEncoding

end Sys2Proof.Proofs

/-! # Errors: which one a Step or an instruction answers, and what it leaves

An instruction answers the error of the table of errors, or completes (`exec_eq`). `StepError` lists what a Step can raise,
`stepWith_refused` what it can refuse; the bounds of the stack errors and the absence of ProgramTooLarge are cases of that list. -/

namespace Sys2Proof.Proofs

open Sys2Proof.Machine Sys2Proof.Safety

/-! ## The register byte at decode -/

/-- The 21 operations with a register byte (R202). -/
theorem hasRegByte_shapeOf_iff (op : Operation) : hasRegByte (shapeOf op) = true ↔
    op ∈ [Operation.ldi, .lda, .store, .push, .pop, .addi, .subi, .muli, .divi, .modi, .inc, .dec, .not, .shl, .shr,
      .rol, .ror, .inp, .print, .jmpr, .callr] := by
  cases op <;> decide

/-- The register byte checked at decode is byte 1 of a format that has one, and nothing else fails the check (R77). -/
theorem decodeWith_eq_invalidOperand_iff (m : Config.Encoding) (b0 b1 b2 : Byte) :
    decodeWith m b0 b1 b2 = .error .invalidOperand ↔
      hasRegByte (m.shape (decodeOperation m b0)) = true ∧ 15 < b1.toNat := by
  have hcheck : (hasRegByte (m.shape (decodeOperation m b0)) && !validRegByte b1) = true ↔
      hasRegByte (m.shape (decodeOperation m b0)) = true ∧ 15 < b1.toNat := by
    rw [Bool.and_eq_true, Bool.not_eq_true', ← Bool.not_eq_true, validRegByte_iff, Nat.not_le]
  rw [← hcheck, decodeWith]
  split
  · next h => exact iff_of_true rfl h
  · next h => split <;> exact iff_of_false nofun h

/-- A decode lacks an operand where the shape does not carry those of the operation's rule. -/
theorem decodeWith_missingOperand {m : Config.Encoding} {b0 b1 b2 : Byte} {op : Operation}
    (h : decodeWith m b0 b1 b2 = .error (.missingOperand op)) :
    op = decodeOperation m b0 ∧ carries (m.shape op) op = false := by
  rw [decodeWith] at h
  split at h
  · cases h
  · split at h
    · cases h
    · next hnone =>
      cases h
      exact ⟨rfl, by rw [← isSome_instrFrom _ _ b1 b2, hnone]; rfl⟩

theorem shape_ne_of_carries_false {f : Shape} {op : Operation} (h : carries f op = false) : f ≠ shapeOf op := by
  rintro rfl
  cases (carries_shapeOf op).symm.trans h

/-- The register byte of an instruction is an operand its shape holds as destination or as source. -/
theorem regByte_instrFrom {op : Operation} {o : Operands} {i : Instr} {b : Byte} (h : instrFrom op o = some i)
    (hb : i.regByte = some b) : o.dst = some b ∨ o.src = some b := by
  cases op <;> simp only [instrFrom, Option.map_eq_some_iff, Option.bind_eq_some_iff, Option.some.injEq] at h
  case hlt | nop | ret => subst h; cases hb
  case ldr | mov | add | sub | mul | div | mod | and | or | xor | cmp => obtain ⟨_, _, rfl⟩ := h; cases hb
  case jmp | jz | jnz | call => obtain ⟨_, _, rfl⟩ := h; cases hb
  case pop | inc | dec | not | shl | shr | rol | ror | inp => obtain ⟨_, hr, rfl⟩ := h; cases hb; exact .inl hr
  case push | print | jmpr | callr => obtain ⟨_, hr, rfl⟩ := h; cases hb; exact .inr hr
  case ldi | lda | addi | subi | muli | divi | modi => obtain ⟨_, hr, _, _, rfl⟩ := h; cases hb; exact .inl hr
  case store => obtain ⟨_, hr, _, _, rfl⟩ := h; cases hb; exact .inr hr

theorem validRegByte_setWidth (r : Reg) : validRegByte (r.setWidth 8) = true := by revert r; decide

/-- Every register operand is valid: a register byte by the check, a nibble of a pair always (R73, R77). -/
theorem validRegByte_operandsOf {f : Shape} {b1 b2 b : Byte} (hv : (hasRegByte f && !validRegByte b1) = false)
    (hb : (operandsOf f b1 b2).dst = some b ∨ (operandsOf f b1 b2).src = some b) : validRegByte b = true := by
  cases f with
  | n | a => obtain hb | hb := hb <;> cases hb
  | r | ri | ra => obtain hb | hb := hb <;> cases hb <;> simpa [hasRegByte] using hv
  | rr => obtain hb | hb := hb <;> cases hb <;> exact validRegByte_setWidth _

theorem wellFormed_of_validRegByte {i : Instr} (h : ∀ b, i.regByte = some b → validRegByte b = true) :
    i.wellFormed = true := by
  rw [Instr.wellFormed]
  split
  · next b hb => exact h b hb
  · rfl

/-- The decoder gives well-formed instructions only, whatever the shapes. -/
theorem wellFormed_of_decodeWith {m : Config.Encoding} {b0 b1 b2 : Byte} {i : Instr}
    (h : decodeWith m b0 b1 b2 = .ok i) : i.wellFormed = true := by
  obtain ⟨hv, hi⟩ := decodeWith_ok h
  exact wellFormed_of_validRegByte fun _ hb => validRegByte_operandsOf hv (regByte_instrFrom hi hb)

/-- The error of the table is the one raised. -/
theorem exec_eq_fault {i : Instr} {s : State} {e : Fault} (h : errorOf i s = some e) : exec i s = .fault e := by
  rw [exec_eq, h]; rfl

/-- Settles O6: the check of the decoder fails on a register byte alone, and exec checks it again. -/
theorem registerByteAbove15IsRefused : Obligations.RegisterByteAbove15IsRefused := by
  refine ⟨hasRegByte_shapeOf_iff, decodeWith_eq_invalidOperand_iff, fun m b0 b1 b2 op h => ?_,
    fun m b0 b1 b2 i => wellFormed_of_decodeWith, fun i s hw => exec_eq_fault (if_pos hw)⟩
  obtain ⟨hop, hc⟩ := decodeWith_missingOperand h
  exact ⟨hop, shape_ne_of_carries_false hc⟩

/-! ## The order of checks -/

/-- Settles O12: exec answers the table's error or completes, and a Step finds Halted and a failed decode before that. -/
theorem errorsComeInTheOrderOfChecks : Obligations.ErrorsComeInTheOrderOfChecks := by
  refine ⟨fun m s hs => stepWith_halted m hs, fun m s hs hd => stepWith_of_fetchDecode_error hs hd, fun i s => ?_⟩
  split
  · next he => exact exec_eq_fault he
  · next he => exact ⟨_, exec_eq_next he⟩

/-! ## What a Step can raise or refuse -/

/-- The errors a Step of s can raise, with their payloads (R201 to R206). -/
inductive StepError (s : State) : Fault → Prop where
  | invalidOperand : StepError s .invalidOperand
  | stackOverflow : s.sp = 0xEA → StepError s (.stackOverflow 0xEA)
  | stackUnderflow : s.sp = 0xFF → StepError s (.stackUnderflow 0xFF)
  | divisionByZero (op : DivOp) : StepError s (.divisionByZero op)
  | ioError : StepError s .ioError

theorem stepError_of_ite {s : State} {p : Prop} [Decidable p] {e e' : Fault}
    (h : (if p then some e' else none) = some e) (he : p → StepError s e') : StepError s e := by
  split at h <;> cases h
  exact he ‹p›

theorem stepError_of_executeError {i : Instr} {s : State} {e : Fault} (h : executeError i s = some e) :
    StepError s e := by
  cases i with
  | push | call | callr => exact stepError_of_ite h .stackOverflow
  | pop | ret => exact stepError_of_ite h .stackUnderflow
  | div | divi | mod | modi => exact stepError_of_ite h fun _ => .divisionByZero _
  | inp => exact stepError_of_ite h fun _ => .ioError
  | _ => cases h

theorem stepError_of_errorOf {i : Instr} {s : State} {e : Fault} (h : errorOf i s = some e) : StepError s e := by
  rw [errorOf] at h
  split at h
  · cases h; exact .invalidOperand
  · exact stepError_of_executeError h

theorem nextOr_fault {m : Config.Encoding} {i : Instr} {s : State} {o : Option Fault} {e : Fault}
    (h : nextOr m i s o = .fault e) : o = some e := by
  cases o <;> cases h
  rfl

theorem nextOr_ne_refused (m : Config.Encoding) (i : Instr) (s : State) (o : Option Fault) (r : Refusal) :
    nextOr m i s o ≠ .refused r := by
  cases o <;> nofun

/-- A Step stays, fails with its decode, or does what the tables say of the instruction decoded. -/
theorem stepWith_cases (m : Config.Encoding) (s : State) : stepWith m s = .next s ∨
    (∃ d, fetchDecode m s = .error d ∧ stepWith m s = decodeFailure d) ∨
    ∃ i, fetchDecode m s = .ok i ∧ stepWith m s = nextOr m i s (errorOf i s) := by
  cases hs : s.halted with
  | true => exact .inl (stepWith_halted m hs)
  | false =>
    cases hd : fetchDecode m s with
    | error d => exact .inr (.inl ⟨d, rfl, stepWith_of_fetchDecode_error hs hd⟩)
    | ok i => exact .inr (.inr ⟨i, rfl, stepWith_eq hs hd⟩)

/-- A Step raises no error but those of `StepError`. -/
theorem stepWith_fault {m : Config.Encoding} {s : State} {e : Fault} (h : stepWith m s = .fault e) : StepError s e := by
  obtain heq | ⟨d, -, heq⟩ | ⟨i, -, heq⟩ := stepWith_cases m s <;> rw [heq] at h
  · cases h
  · cases d <;> cases h
    exact .invalidOperand
  · exact stepError_of_errorOf (nextOr_fault h)

/-- A Step refuses only a decode that lacks an operand. -/
theorem stepWith_refused {m : Config.Encoding} {s : State} {r : Refusal} (h : stepWith m s = .refused r) :
    ∃ op, r = .missingOperand op ∧ fetchDecode m s = .error (.missingOperand op) := by
  obtain heq | ⟨d, hd, heq⟩ | ⟨i, -, heq⟩ := stepWith_cases m s <;> rw [heq] at h
  · cases h
  · cases d <;> cases h
    exact ⟨_, rfl, hd⟩
  · exact absurd h (nextOr_ne_refused m i s _ r)

/-- No shape of the default lacks an operand, so the Step of the package refuses nothing. -/
theorem step_ne_refused (s : State) (r : Refusal) : step s ≠ .refused r := by
  intro h
  obtain ⟨op, -, hd⟩ := stepWith_refused h
  obtain ⟨-, hc⟩ := decodeWith_missingOperand hd
  exact shape_ne_of_carries_false hc rfl

theorem stepWith_ne_programTooLarge (m : Config.Encoding) (s : State) (size start max : Nat) :
    stepWith m s ≠ .fault (.programTooLarge size start max) := fun h => nomatch stepWith_fault h

/-- Settles O13: the errors are those of `StepError`, and a refusal is that of a decode. -/
theorem stepErrorsAreTheSpecs : Obligations.StepErrorsAreTheSpecs := by
  refine fun m s => ⟨fun r h => ?_, step_ne_refused s, stepWith_ne_programTooLarge m s, fun v h => ?_, fun v h => ?_⟩
  · obtain ⟨op, rfl, hd⟩ := stepWith_refused h
    exact ⟨op, rfl, (decodeWith_missingOperand hd).2⟩
  · cases stepWith_fault h with
    | stackOverflow hs => exact ⟨rfl, hs⟩
  · cases stepWith_fault h with
    | stackUnderflow hs => exact ⟨rfl, hs⟩

end Sys2Proof.Proofs

/-! # Input: IN, and what an error leaves of the channel

The channel's two fields are no part of what another instruction reads or writes, so only an IN that completes consumes an
answer, and an error returns the state with its answers as they were. -/

namespace Sys2Proof.Proofs

open Sys2Proof.Machine Sys2Proof.Safety

/-! ## Every other instruction -/

theorem inputAfter_of_ne_inp {i : Instr} (h : ∀ rd, i ≠ .inp rd) (l : List InputAnswer) : inputAfter i l = l := by
  cases i <;> simp_all [inputAfter]

theorem inCountAfter_of_ne_inp {i : Instr} (h : ∀ rd, i ≠ .inp rd) (n : Nat) : inCountAfter i n = n := by
  cases i <;> simp_all [inCountAfter]

/-- The channel is no part of what an instruction other than IN reads. -/
theorem agreeOn_input {i : Instr} (h : ∀ rd, i ≠ .inp rd) (s : State) (l : List InputAnswer) (n : Nat) :
    AgreeOn i s { s with input := l, inCount := n } where
  reg _ _ := rfl
  pc := rfl
  sp := rfl
  mem := rfl
  z _ := rfl
  inRead := fun ⟨rd, hi⟩ => absurd hi (h rd)

theorem nextState_input {i : Instr} (h : ∀ rd, i ≠ .inp rd) (m : Config.Encoding) (s : State) (l : List InputAnswer)
    (n : Nat) : nextState m i { s with input := l, inCount := n } = { nextState m i s with input := l, inCount := n } := by
  have ha := agreeOn_input h s l n
  rw [ha.nextState_eq, ha.regsAfter_eq rfl, ha.flagsAfter_eq rfl, inputAfter_of_ne_inp h, inCountAfter_of_ne_inp h]
  exact congrArg (fun o => { nextState m i s with out := o, input := l, inCount := n }) (outAfter_eq i s).symm

/-- An instruction other than IN that completes leaves the answers as they were. -/
theorem input_eq_of_exec_next {i : Instr} {s t : State} (hi : ∀ rd, i ≠ .inp rd) (h : exec i s = .next t) :
    t.input = s.input ∧ t.inCount = s.inCount := by
  obtain ⟨-, rfl⟩ := exec_next h
  exact ⟨inputAfter_of_ne_inp hi _, inCountAfter_of_ne_inp hi _⟩

/-- Settles O43: no table but IN's looks at the channel. -/
theorem onlyInConsultsTheChannel : Obligations.OnlyInConsultsTheChannel :=
  fun _ s l n hi => ⟨(agreeOn_input hi s l n).exec_eq_onNext (f := fun t => { t with input := l, inCount := n })
    (nextState_input hi _ s l n), fun _ => input_eq_of_exec_next hi⟩

/-- Settles O11: an error gives back the state it was raised in, and an instruction that changed the answers is an IN. -/
theorem errorLeavesTheStateAsItWas : Obligations.ErrorLeavesTheStateAsItWas := by
  refine ⟨fun s t e h => ?_, fun i s t h hne => ?_⟩
  · obtain ⟨rfl, hs⟩ := stepResult_err h
    exact ⟨rfl, hs, h⟩
  · by_contra hi
    obtain ⟨hinput, hcount⟩ := input_eq_of_exec_next (not_exists.mp hi) h
    exact hne.elim (· hinput) (· hcount)

/-! ## IN -/

/-- Settles O34: the register byte is checked first, then the answer is IoError or the result of the tables. -/
theorem inputByteOrError : Obligations.InputByteOrError := by
  refine fun rd s => ⟨rfl, ?_⟩
  split
  · next hrd => exact exec_eq_invalidOperand rfl hrd s
  · next hrd =>
    have hw : (Instr.inp rd).wellFormed = true := (wellFormed_iff_of_regByte rfl).mpr (Nat.not_lt.mp hrd)
    have he : errorOf (.inp rd) s = if s.inRead = .fail then some .ioError else none := errorOf_of_wellFormed hw s
    split
    · next hr => exact exec_eq_fault (by rw [he, if_pos hr])
    · next b hr =>
      have hres : resultOf (.inp rd) s = b := by rw [resultOf, hr]
      refine ⟨_, exec_eq_next (by rw [he, hr]; rfl), ?_, rfl, ?_, rfl, rfl⟩
      · rw [nextState_getReg_of_writesReg rfl, hres]
      · exact advances_nextState (i := .inp rd) rfl defaultEncoding

end Sys2Proof.Proofs

/-! # Memory in canonical form

A byte that is not 0 is read where its cell is listed and nowhere else, so what is read fixes the cells; and they are listed
in rising order of address. -/

namespace Sys2Proof.Proofs

open Sys2Proof.Machine Sys2Proof.Safety

/-- A byte other than 0 is read from a cell listed. -/
theorem mem_of_read_ne_zero {m : Memory} {a : Byte} (h : Memory.read m a ≠ 0) : (a.toNat, Memory.read m a) ∈ m := by
  induction m with
  | nil => exact absurd rfl h
  | cons p rest ih =>
    obtain ⟨k, v⟩ := p
    rw [Memory.read] at h ⊢
    split
    · next hk => subst hk; exact List.mem_cons_self
    · next hk => rw [if_neg hk] at h; exact List.mem_cons_of_mem _ (ih h)

/-- Where the addresses rise strictly, every cell listed is the one read at its address. -/
theorem read_of_mem {m : Memory} {a v : Byte} (hm : m.Pairwise fun p q => p.1 < q.1) (h : (a.toNat, v) ∈ m) :
    Memory.read m a = v := by
  induction hm with
  | nil => cases h
  | @cons p rest hp _ ih =>
    obtain ⟨k, w⟩ := p
    rw [Memory.read]
    obtain h | h := List.mem_cons.mp h
    · cases h; exact if_pos rfl
    · rw [if_neg (hp _ h).ne, ih h]

/-- The cells of a canonical memory are listed in any memory that reads alike. -/
theorem subset_of_read_eq {m m' : Memory} (hm : Memory.wf m) (h : ∀ a, Memory.read m a = Memory.read m' a) : m ⊆ m' := by
  rintro ⟨k, v⟩ hp
  obtain ⟨hsorted, hcells⟩ := hm
  obtain ⟨hk, hv⟩ := hcells _ hp
  obtain ⟨a, rfl⟩ : ∃ a : Byte, a.toNat = k := ⟨BitVec.ofNat 8 k, Nat.mod_eq_of_lt hk⟩
  have hread : Memory.read m' a = v := (h a).symm.trans (read_of_mem hsorted hp)
  subst hread
  exact mem_of_read_ne_zero hv

theorem nodup_of_wf {m : Memory} (h : Memory.wf m) : m.Nodup :=
  h.1.imp fun hlt heq => hlt.ne (congrArg Prod.fst heq)

/-- Settles O48: the same cells in the same order. -/
theorem canonicalMemoriesThatReadAlikeAreEqual : Obligations.CanonicalMemoriesThatReadAlikeAreEqual := by
  intro m m' hm hm' h
  have hperm : m.Perm m' := (List.perm_ext_iff_of_nodup (nodup_of_wf hm) (nodup_of_wf hm')).mpr fun _ =>
    ⟨fun hp => subset_of_read_eq hm h hp, fun hp => subset_of_read_eq hm' (fun a => (h a).symm) hp⟩
  exact hperm.eq_of_pairwise (fun _ _ _ _ hlt hgt => absurd hlt hgt.asymm) hm.1 hm'.1

end Sys2Proof.Proofs

/-! # Load and Reset

A Load is a byte stream written upward from its start. Counted from the start, modulo 256, an address holds the byte of that
index, whether or not the stream wraps; a Load that fits does not wrap. -/

namespace Sys2Proof.Proofs

open Sys2Proof.Machine Sys2Proof.Safety

/-! ## Load -/

/-- A byte stream of at most 256 bytes read back: the byte at the distance from the start, else what was there. -/
theorem read_writeBytes {bytes : List Byte} (h : bytes.length ≤ 256) (m : Memory) (start a : Byte) :
    Memory.read (Memory.writeBytes m start bytes) a = bytes[(a - start).toNat]?.getD (Memory.read m a) := by
  induction bytes generalizing m start with
  | nil => rfl
  | cons v rest ih =>
    rw [List.length_cons] at h
    rw [Memory.writeBytes, ih (by omega), Memory.read_write]
    by_cases ha : a = start
    · have hend : (a - (start + 1)).toNat = 255 := by bv_omega
      rw [hend, List.getElem?_eq_none (by omega), if_pos ha, ha, BitVec.sub_self]
      rfl
    · have hsucc : (a - start).toNat = (a - (start + 1)).toNat + 1 := by bv_omega
      rw [hsucc, List.getElem?_cons_succ, if_neg ha]

/-- A stream that ends within memory stands at the addresses from its start to its end (R242). -/
theorem read_writeBytes_of_fits {bytes : List Byte} {start : Byte} (h : start.toNat + bytes.length ≤ 256) (m : Memory)
    (a : Byte) : Memory.read (Memory.writeBytes m start bytes) a =
      if start.toNat ≤ a.toNat ∧ a.toNat < start.toNat + bytes.length then bytes.getD (a.toNat - start.toNat) 0
      else Memory.read m a := by
  rw [read_writeBytes (by omega)]
  split
  · next hin =>
    have hd : (a - start).toNat = a.toNat - start.toNat := BitVec.toNat_sub_of_le hin.1
    have hlt : a.toNat - start.toNat < bytes.length := by omega
    simp [hd, hlt]
  · next hout =>
    have hd : bytes.length ≤ (a - start).toNat := by bv_omega
    rw [List.getElem?_eq_none hd]
    rfl

/-- A Load that fits completes, with its bytes written (R242). -/
theorem load_eq_next {bytes : List Byte} {start : Byte} (h : start.toNat + bytes.length ≤ 256) (s : State) :
    load bytes start s = .next { s with mem := Memory.writeBytes s.mem start bytes } := if_neg (Nat.not_lt.mpr h)

/-- Settles O54: the range either fits or it does not, and the one error of a Load is none of a Step's. -/
theorem loadWritesAllOrNothing : Obligations.LoadWritesAllOrNothing := by
  refine ⟨fun bytes start s => ?_, fun start s => load_eq_next (bytes := []) start.isLt.le s, stepWith_ne_programTooLarge⟩
  split
  · next h => exact if_pos h
  · next h =>
    have hfits := Nat.not_lt.mp h
    exact ⟨_, load_eq_next hfits s, read_writeBytes_of_fits hfits s.mem, rfl⟩

/-! ## Reset -/

/-- Settles O45: ENTRY is no part of the invariant. -/
theorem resetMeetsTheInvariant : Obligations.ResetMeetsTheInvariant := ⟨inv_resetAt _, inv_resetAt⟩

theorem getReg_resetAt (entry : Byte) (r : Reg) : (State.resetAt entry).getReg r = 0 :=
  Vector.getElem_replicate r.isLt

/-- Settles O46: only the registers and memory are not literal fields of the state after reset. -/
theorem resetValues : Obligations.ResetValues := fun entry =>
  ⟨getReg_resetAt entry, rfl, rfl, rfl, rfl, fun _ => rfl, rfl, rfl⟩

end Sys2Proof.Proofs
